-- ==== Sys2Proof/Word.lean ====
section
/-! DEFINITION. The value domain of the registers and the memory cell (spec/30_encoding.md R45, spec/00_scope.md R4, R5). -/

namespace Sys2Proof

/-- The kind bit `K` of a cell: 0 is data, 1 an instruction record (R45). -/
inductive Kind where
  | data
  | record
deriving DecidableEq, Repr, Inhabited

/-- One memory cell, the abstract triple `(K, OP, VAL)` (R21, R45). `VAL` is an exact integer: no rule wraps a value. -/
structure Cell where
  kind : Kind
  op : BitVec 8
  val : Int
deriving DecidableEq, Repr, Inhabited

/-- The empty cell `(K=0, OP=0, VAL=0)`, the reset content of memory (R21, R22). -/
def Cell.empty : Cell := ⟨.data, 0, 0⟩

/-- The data cell `(K=0, OP=0, VAL=v)` that every data write leaves (R35). -/
def Cell.ofValue (v : Int) : Cell := ⟨.data, 0, v⟩

/-- Bit `k` of an integer in infinite two's complement: the parity of `floor (v / 2^k)` (R5). -/
def valueBit (v : Int) (k : Nat) : Bool := v / 2 ^ k % 2 == 1

end Sys2Proof
end

