-- ==== Sys2Proof/Config.lean ====
section
/-! DEFINITION. The implementation parameters (spec/00_scope.md R4): `MEM_SIZE` is fixed, `VW` and `SUBI_ALIAS` are OPEN
and stay uninterpreted. -/

namespace Sys2Proof

/-- `MEM_SIZE`, the number of memory cells (R4). -/
def memSize : Nat := 65536

/-- `VW`: the reference value "unbounded", or a finite width of at least 17 bits (R4). -/
inductive ValueWidth where
  | unbounded
  | bits (n : Nat) (atLeast17 : 17 ≤ n)
deriving DecidableEq, Repr, Inhabited

/-- Whether a value is representable: always under the reference `VW`, within `-2^(n-1) .. 2^(n-1)-1` under `n` bits (R4, R183). -/
def ValueWidth.fits : ValueWidth → Int → Bool
  | .unbounded, _ => true
  | .bits n _, v => decide (-(2 ^ (n - 1)) ≤ v) && decide (v ≤ 2 ^ (n - 1) - 1)

/-- `SUBI_ALIAS`: which subtract-immediate opcode, if any, runs the other accumulator's handler (R4, R126, R129). -/
inductive SubiAlias where
  | none
  | subbAsSuba
  | subaAsSubb
deriving DecidableEq, Repr, Inhabited

/-- The two parameters the spec leaves open, "fixed for a run" (R10). -/
structure Config where
  valueWidth : ValueWidth
  subiAlias : SubiAlias
deriving DecidableEq, Repr, Inhabited

def Config.fits (c : Config) (v : Int) : Bool := c.valueWidth.fits v

/-- The parameters of the machine at hand. DESIGN CHOICE (log entries 2 and 3), safe: no value is chosen, so whatever is
proved of the machine holds for every `VW` and every `SUBI_ALIAS`. -/
opaque Config.chip : Config

/-- The reference parameters used by the spec's vectors (95_test_vectors.md, conventions). -/
def Config.reference : Config := ⟨.unbounded, .none⟩

end Sys2Proof
end

