-- ==== Sys2Proof/Syntax.lean ====
section
/-! DEFINITION. The instructions: one constructor per row of spec/opcode_table.json (spec/30_encoding.md R46, R49). The
argument is the operand `VAL`, a signed integer used as is (R48); a format-N instruction has none (R52). -/

namespace Sys2Proof

/-- The four record formats (R46). -/
inductive Format where
  | implied
  | immediate
  | direct
  | indexed
deriving DecidableEq, Repr, Inhabited

/-- The 64 instructions (R49), in the table's order. -/
inductive Instr where
  /-- `lda` I: A <- VAL (R100). -/
  | ldaImm (v : Int)
  /-- `lda` D: A <- M[VAL] (R101). -/
  | ldaDir (addr : Int)
  /-- `lda` X: A <- M[VAL+X] (R102). -/
  | ldaIdx (base : Int)
  /-- `ldb` I: B <- VAL (R103). -/
  | ldbImm (v : Int)
  /-- `ldb` D: B <- M[VAL] (R104). -/
  | ldbDir (addr : Int)
  /-- `ldb` X: B <- M[VAL+X] (R105). -/
  | ldbIdx (base : Int)
  /-- `ldx` I: X <- VAL (R106). -/
  | ldxImm (v : Int)
  /-- `lds` I: SP <- VAL (R107). -/
  | ldsImm (v : Int)
  /-- `sta` D: M[VAL] <- A (R108). -/
  | staDir (addr : Int)
  /-- `sta` X: M[VAL+X] <- A (R109). -/
  | staIdx (base : Int)
  /-- `stb` D: M[VAL] <- B (R110). -/
  | stbDir (addr : Int)
  /-- `stb` X: M[VAL+X] <- B (R111). -/
  | stbIdx (base : Int)
  /-- `adda` I: A <- A + VAL (R120). -/
  | addaImm (v : Int)
  /-- `adda` D: A <- A + M[VAL] (R121). -/
  | addaDir (addr : Int)
  /-- `adda` X: A <- A + M[VAL+X] (R122). -/
  | addaIdx (base : Int)
  /-- `addb` I: B <- B + VAL (R123). -/
  | addbImm (v : Int)
  /-- `addb` D: B <- B + M[VAL] (R124). -/
  | addbDir (addr : Int)
  /-- `addb` X: B <- B + M[VAL+X] (R125). -/
  | addbIdx (base : Int)
  /-- `suba` I: A <- A - VAL (see `SUBI_ALIAS`) (R126). -/
  | subaImm (v : Int)
  /-- `suba` D: A <- A - M[VAL] (R127). -/
  | subaDir (addr : Int)
  /-- `suba` X: A <- A - M[VAL+X] (R128). -/
  | subaIdx (base : Int)
  /-- `subb` I: B <- B - VAL (see `SUBI_ALIAS`) (R129). -/
  | subbImm (v : Int)
  /-- `subb` D: B <- B - M[VAL] (R130). -/
  | subbDir (addr : Int)
  /-- `subb` X: B <- B - M[VAL+X] (R131). -/
  | subbIdx (base : Int)
  /-- `anda` I: A <- AND(A, VAL) (R132). -/
  | andaImm (v : Int)
  /-- `anda` D: A <- AND(A, M[VAL]) (R133). -/
  | andaDir (addr : Int)
  /-- `anda` X: A <- AND(A, M[VAL+X]) (R134). -/
  | andaIdx (base : Int)
  /-- `andb` I: B <- AND(B, VAL) (R135). -/
  | andbImm (v : Int)
  /-- `andb` D: B <- AND(B, M[VAL]) (R136). -/
  | andbDir (addr : Int)
  /-- `andb` X: B <- AND(B, M[VAL+X]) (R137). -/
  | andbIdx (base : Int)
  /-- `ora` I: A <- OR(A, VAL) (R138). -/
  | oraImm (v : Int)
  /-- `ora` D: A <- OR(A, M[VAL]) (R139). -/
  | oraDir (addr : Int)
  /-- `ora` X: A <- OR(A, M[VAL+X]) (R140). -/
  | oraIdx (base : Int)
  /-- `orb` I: B <- OR(B, VAL) (R141). -/
  | orbImm (v : Int)
  /-- `orb` D: B <- OR(B, M[VAL]) (R142). -/
  | orbDir (addr : Int)
  /-- `orb` X: B <- OR(B, M[VAL+X]) (R143). -/
  | orbIdx (base : Int)
  /-- `psh` I: push VAL (R152). -/
  | pshImm (v : Int)
  /-- `psh` D: push M[VAL] (R153). -/
  | pshDir (addr : Int)
  /-- `psh` X: push M[VAL+X] (R154). -/
  | pshIdx (base : Int)
  /-- `add` N: B <- A + B (R80). -/
  | add
  /-- `sub` N: B <- A - B (R81). -/
  | sub
  /-- `inca` N: A <- A + 1 (R82). -/
  | inca
  /-- `incb` N: B <- B + 1 (R83). -/
  | incb
  /-- `deca` N: A <- A - 1 (R84). -/
  | deca
  /-- `decb` N: B <- B - 1 (R85). -/
  | decb
  /-- `inva` N: A <- NOT(A) (R86). -/
  | inva
  /-- `invb` N: B <- NOT(B) (R87). -/
  | invb
  /-- `incx` N: X <- X + 1 (R88). -/
  | incx
  /-- `decx` N: X <- X - 1 (R89). -/
  | decx
  /-- `cmp` N: set Z/G/L from A - B, sticky (R90). -/
  | cmp
  /-- `hlt` N: H <- 1 (R91). -/
  | hlt
  /-- `psha` N: push A (R150). -/
  | psha
  /-- `pshb` N: push B (R151). -/
  | pshb
  /-- `popa` N: pop into A (R155). -/
  | popa
  /-- `popb` N: pop into B (R156). -/
  | popb
  /-- `jmp` D: PC <- VAL (R160). -/
  | jmp (target : Int)
  /-- `jne` D: if Z = 0: PC <- VAL (R161). -/
  | jne (target : Int)
  /-- `jeq` D: if Z = 1: PC <- VAL (R162). -/
  | jeq (target : Int)
  /-- `jgt` D: if G = 1: PC <- VAL (R163). -/
  | jgt (target : Int)
  /-- `jlt` D: if L = 1: PC <- VAL (R164). -/
  | jlt (target : Int)
  /-- `jge` D: if Z = 1 or G = 1: PC <- VAL (R165). -/
  | jge (target : Int)
  /-- `jle` D: if Z = 1 or L = 1: PC <- VAL (R166). -/
  | jle (target : Int)
  /-- `jsr` D: RS <- PC+1; PC <- VAL (R167). -/
  | jsr (target : Int)
  /-- `rfs` N: PC <- RS (R168). -/
  | rfs
deriving DecidableEq, Repr, Inhabited

end Sys2Proof
end

