-- ==== Sys2Proof/WellFormed.lean ====
section
/-! DEFINITION. What makes an instruction well formed: its operand is one the cell's VAL field can hold (spec/30_encoding.md
R45, R48), and, for an assembled record, one the assembler can produce (R48, R57). -/

namespace Sys2Proof

/-- The operand an instruction carries; none for format N (R46, R52). -/
def Instr.operand : Instr → Option Int
  | .ldaImm v | .ldaDir v | .ldaIdx v | .ldbImm v | .ldbDir v | .ldbIdx v | .ldxImm v | .ldsImm v | .staDir v
  | .staIdx v | .stbDir v | .stbIdx v | .addaImm v | .addaDir v | .addaIdx v | .addbImm v | .addbDir v | .addbIdx v
  | .subaImm v | .subaDir v | .subaIdx v | .subbImm v | .subbDir v | .subbIdx v | .andaImm v | .andaDir v
  | .andaIdx v | .andbImm v | .andbDir v | .andbIdx v | .oraImm v | .oraDir v | .oraIdx v | .orbImm v | .orbDir v
  | .orbIdx v | .pshImm v | .pshDir v | .pshIdx v | .jmp v | .jne v | .jeq v | .jgt v | .jlt v | .jge v | .jle v
  | .jsr v => some v
  | .add | .sub | .inca | .incb | .deca | .decb | .inva | .invb | .incx | .decx | .cmp | .hlt | .psha | .pshb | .popa
  | .popb | .rfs => none

/-- The `VAL` field has `VW` bits, so a record can hold only a representable operand (R45, R48). -/
def Instr.wellFormed (w : ValueWidth) (i : Instr) : Bool := i.operand.all w.fits

/-- The operands the assembler produces: `0 <= VAL <= 0xFFFF` (R48, R57). -/
def Instr.assembled (i : Instr) : Bool := i.operand.all (fun v => decide (0 ≤ v) && decide (v ≤ 0xFFFF))

end Sys2Proof
end

