-- ==== Sys2Proof/Decode.lean ====
section
/-! DEFINITION. The cell as a number and as bits, the opcode map, the decoder and the encoder (spec/30_encoding.md R45 to
R53). -/

namespace Sys2Proof

/-- The kind bit as a number (R45). -/
def Kind.toNat : Kind → Nat
  | .data => 0
  | .record => 1

/-- The cell as a number: `word = VAL*512 + OP*2 + K` (R45). -/
def Cell.word (c : Cell) : Int := c.val * 512 + c.op.toNat * 2 + c.kind.toNat

/-- The cell a number stands for: `K = word[0]`, `OP = word[8:1]`, `VAL` the signed rest (R45, R48). -/
def Cell.ofWord (w : Int) : Cell where
  kind := if w % 2 = 1 then .record else .data
  op := BitVec.ofInt 8 (w / 2)
  val := w / 512

/-- The header `word[8:0] = OP ‖ K` (R45). -/
def Cell.header (c : Cell) : BitVec 9 := c.op ++ BitVec.ofNat 1 c.kind.toNat

/-- The cell's `VW + 9` bits under a finite `VW = n`, `VAL` in two's complement above the header (R45). -/
def Cell.toBits (n : Nat) (c : Cell) : BitVec (n + 9) := BitVec.ofInt n c.val ++ c.header

/-- The cell that `VW + 9` bits stand for: `VAL = sext_VW(word[VW+8:9])` (R48). -/
def Cell.ofBits (n : Nat) (w : BitVec (n + 9)) : Cell where
  kind := if w.getLsbD 0 then .record else .data
  op := w.extractLsb' 1 8
  val := (w.extractLsb' 9 n).toInt

/-- The mode field `OP[1:0]` of each format (R47). -/
def Format.mode : Format → Nat
  | .implied => 0
  | .immediate => 1
  | .direct => 2
  | .indexed => 3

/-- One row of the opcode map (R49). -/
structure OpcodeRow where
  family : Nat
  mnemonic : String
  format : Format
  op : BitVec 8
  make : Int → Instr

/-- The opcode map, families 1 to 6: loads and stores (R49). -/
def loadStoreRows : List OpcodeRow := [
  ⟨1, "lda", .immediate, 0x05, .ldaImm⟩,
  ⟨1, "lda", .direct, 0x06, .ldaDir⟩,
  ⟨1, "lda", .indexed, 0x07, .ldaIdx⟩,
  ⟨2, "ldb", .immediate, 0x09, .ldbImm⟩,
  ⟨2, "ldb", .direct, 0x0A, .ldbDir⟩,
  ⟨2, "ldb", .indexed, 0x0B, .ldbIdx⟩,
  ⟨3, "ldx", .immediate, 0x0D, .ldxImm⟩,
  ⟨4, "lds", .immediate, 0x11, .ldsImm⟩,
  ⟨5, "sta", .direct, 0x16, .staDir⟩,
  ⟨5, "sta", .indexed, 0x17, .staIdx⟩,
  ⟨6, "stb", .direct, 0x1A, .stbDir⟩,
  ⟨6, "stb", .indexed, 0x1B, .stbIdx⟩]

/-- The opcode map, families 7 to 14: accumulator arithmetic and logic with an operand (R49). -/
def operandArithRows : List OpcodeRow := [
  ⟨7, "adda", .immediate, 0x1D, .addaImm⟩,
  ⟨7, "adda", .direct, 0x1E, .addaDir⟩,
  ⟨7, "adda", .indexed, 0x1F, .addaIdx⟩,
  ⟨8, "addb", .immediate, 0x21, .addbImm⟩,
  ⟨8, "addb", .direct, 0x22, .addbDir⟩,
  ⟨8, "addb", .indexed, 0x23, .addbIdx⟩,
  ⟨9, "suba", .immediate, 0x25, .subaImm⟩,
  ⟨9, "suba", .direct, 0x26, .subaDir⟩,
  ⟨9, "suba", .indexed, 0x27, .subaIdx⟩,
  ⟨10, "subb", .immediate, 0x29, .subbImm⟩,
  ⟨10, "subb", .direct, 0x2A, .subbDir⟩,
  ⟨10, "subb", .indexed, 0x2B, .subbIdx⟩,
  ⟨11, "anda", .immediate, 0x2D, .andaImm⟩,
  ⟨11, "anda", .direct, 0x2E, .andaDir⟩,
  ⟨11, "anda", .indexed, 0x2F, .andaIdx⟩,
  ⟨12, "andb", .immediate, 0x31, .andbImm⟩,
  ⟨12, "andb", .direct, 0x32, .andbDir⟩,
  ⟨12, "andb", .indexed, 0x33, .andbIdx⟩,
  ⟨13, "ora", .immediate, 0x35, .oraImm⟩,
  ⟨13, "ora", .direct, 0x36, .oraDir⟩,
  ⟨13, "ora", .indexed, 0x37, .oraIdx⟩,
  ⟨14, "orb", .immediate, 0x39, .orbImm⟩,
  ⟨14, "orb", .direct, 0x3A, .orbDir⟩,
  ⟨14, "orb", .indexed, 0x3B, .orbIdx⟩]

/-- The opcode map, families 15 to 27: push with an operand, register-only (R49). -/
def registerRows : List OpcodeRow := [
  ⟨15, "psh", .immediate, 0x3D, .pshImm⟩,
  ⟨15, "psh", .direct, 0x3E, .pshDir⟩,
  ⟨15, "psh", .indexed, 0x3F, .pshIdx⟩,
  ⟨16, "add", .implied, 0x40, fun _ => .add⟩,
  ⟨17, "sub", .implied, 0x44, fun _ => .sub⟩,
  ⟨18, "inca", .implied, 0x48, fun _ => .inca⟩,
  ⟨19, "incb", .implied, 0x4C, fun _ => .incb⟩,
  ⟨20, "deca", .implied, 0x50, fun _ => .deca⟩,
  ⟨21, "decb", .implied, 0x54, fun _ => .decb⟩,
  ⟨22, "inva", .implied, 0x58, fun _ => .inva⟩,
  ⟨23, "invb", .implied, 0x5C, fun _ => .invb⟩,
  ⟨24, "incx", .implied, 0x60, fun _ => .incx⟩,
  ⟨25, "decx", .implied, 0x64, fun _ => .decx⟩,
  ⟨26, "cmp", .implied, 0x68, fun _ => .cmp⟩,
  ⟨27, "hlt", .implied, 0x6C, fun _ => .hlt⟩]

/-- The opcode map, families 28 to 40: stack and control transfer (R49). -/
def stackControlRows : List OpcodeRow := [
  ⟨28, "psha", .implied, 0x70, fun _ => .psha⟩,
  ⟨29, "pshb", .implied, 0x74, fun _ => .pshb⟩,
  ⟨30, "popa", .implied, 0x78, fun _ => .popa⟩,
  ⟨31, "popb", .implied, 0x7C, fun _ => .popb⟩,
  ⟨32, "jmp", .direct, 0x82, .jmp⟩,
  ⟨33, "jne", .direct, 0x86, .jne⟩,
  ⟨34, "jeq", .direct, 0x8A, .jeq⟩,
  ⟨35, "jgt", .direct, 0x8E, .jgt⟩,
  ⟨36, "jlt", .direct, 0x92, .jlt⟩,
  ⟨37, "jge", .direct, 0x96, .jge⟩,
  ⟨38, "jle", .direct, 0x9A, .jle⟩,
  ⟨39, "jsr", .direct, 0x9E, .jsr⟩,
  ⟨40, "rfs", .implied, 0xA0, fun _ => .rfs⟩]

/-- The complete map: 64 rows, 40 families (R49). -/
def opcodeMap : List OpcodeRow := loadStoreRows ++ operandArithRows ++ registerRows ++ stackControlRows

/-- Why a cell holds no instruction. Both are executed as no-ops (R50, R51). -/
inductive Undecoded where
  /-- `K = 0`: a data or empty cell, whatever its `OP` and `VAL` (R45, R51). -/
  | dataCell
  /-- `K = 1` with an `OP` that the map does not list (R50). -/
  | unassigned (op : BitVec 8)
deriving DecidableEq, Repr, Inhabited

/-- The decoder: `K` selects the kind, `OP` is looked up in the map, the operand is the whole `VAL` (R48, R49). -/
def decode (c : Cell) : Except Undecoded Instr :=
  match c.kind with
  | .data => .error .dataCell
  | .record =>
    match opcodeMap.find? (fun r => r.op == c.op) with
    | some r => .ok (r.make c.val)
    | none => .error (.unassigned c.op)

/-- The opcode number of an instruction (R49). -/
def Instr.op : Instr → BitVec 8
  | .ldaImm _ => 0x05
  | .ldaDir _ => 0x06
  | .ldaIdx _ => 0x07
  | .ldbImm _ => 0x09
  | .ldbDir _ => 0x0A
  | .ldbIdx _ => 0x0B
  | .ldxImm _ => 0x0D
  | .ldsImm _ => 0x11
  | .staDir _ => 0x16
  | .staIdx _ => 0x17
  | .stbDir _ => 0x1A
  | .stbIdx _ => 0x1B
  | .addaImm _ => 0x1D
  | .addaDir _ => 0x1E
  | .addaIdx _ => 0x1F
  | .addbImm _ => 0x21
  | .addbDir _ => 0x22
  | .addbIdx _ => 0x23
  | .subaImm _ => 0x25
  | .subaDir _ => 0x26
  | .subaIdx _ => 0x27
  | .subbImm _ => 0x29
  | .subbDir _ => 0x2A
  | .subbIdx _ => 0x2B
  | .andaImm _ => 0x2D
  | .andaDir _ => 0x2E
  | .andaIdx _ => 0x2F
  | .andbImm _ => 0x31
  | .andbDir _ => 0x32
  | .andbIdx _ => 0x33
  | .oraImm _ => 0x35
  | .oraDir _ => 0x36
  | .oraIdx _ => 0x37
  | .orbImm _ => 0x39
  | .orbDir _ => 0x3A
  | .orbIdx _ => 0x3B
  | .pshImm _ => 0x3D
  | .pshDir _ => 0x3E
  | .pshIdx _ => 0x3F
  | .add => 0x40
  | .sub => 0x44
  | .inca => 0x48
  | .incb => 0x4C
  | .deca => 0x50
  | .decb => 0x54
  | .inva => 0x58
  | .invb => 0x5C
  | .incx => 0x60
  | .decx => 0x64
  | .cmp => 0x68
  | .hlt => 0x6C
  | .psha => 0x70
  | .pshb => 0x74
  | .popa => 0x78
  | .popb => 0x7C
  | .jmp _ => 0x82
  | .jne _ => 0x86
  | .jeq _ => 0x8A
  | .jgt _ => 0x8E
  | .jlt _ => 0x92
  | .jge _ => 0x96
  | .jle _ => 0x9A
  | .jsr _ => 0x9E
  | .rfs => 0xA0

/-- The instruction record of an instruction; the assembler writes 0 into the `VAL` of format N (R46, R52). -/
def encode (i : Instr) : Cell := ⟨.record, i.op, i.operand.getD 0⟩

/-- What the decoder reads from the cell whose low `nbits` bits are `w` and whose other bits are 0. -/
def decodeTableWord (nbits w : Nat) : Option Instr := (decode (Cell.ofWord (w % 2 ^ nbits : Nat))).toOption

end Sys2Proof
end

