-- ==== Sys2Proof/Machine/State.lean ====
section
/-! DEFINITION. The architectural state, its reset value, and the reasons a step can stop (spec/10_state.md R10 to R22,
spec/60_exceptions.md R180). -/

namespace Sys2Proof.Machine

/-- The fault code FC (R18, R180). -/
inductive FaultCode where
  | none
  | addressOutOfRange
  | notData
  | valueRange
deriving DecidableEq, Repr, Inhabited

/-- A raised fault with its information (R180). Raising one leads to a NEXT state whose FC and FA record it (R186). -/
inductive Raise where
  /-- A data read, data write or taken transfer whose address is outside `0 .. MEM_SIZE-1` (R181). -/
  | addressOutOfRange (a : Int)
  /-- A data read of a cell that holds an instruction record (R182). -/
  | notData (a : Int)
  /-- Under a finite `VW`, a write of a value that `VW` bits cannot hold (R183). -/
  | valueRange (v : Int)
deriving DecidableEq, Repr, Inhabited

/-- Running, Halted or Faulted (R19). -/
inductive RunState where
  | running
  | halted
  | faulted
deriving DecidableEq, Repr, Inhabited

/-- The three terminal states, named: asked for a step in one of them, the machine answers the name, since no step exists
(R19, R71). DEDUCED (log entry 4). -/
inductive Fault where
  /-- `FC = 0` and `H = 1`. Answered by `cycle`. Safe: the spec gives this state no successor. -/
  | halted
  /-- `FC = 0`, `H = 0` and `PC >= MEM_SIZE`. Answered by `cycle`. Safe: the spec gives this state no successor. -/
  | endOfMemory
  /-- `FC ≠ 0`, an earlier step raised a fault. Answered by `cycle`. Safe: the spec gives this state no successor. -/
  | faulted
deriving DecidableEq, Repr, Inhabited

/-- Refusals. No instruction of this machine is refused. -/
inductive Refusal where
  /-- An instruction without a meaning; no arm of `exec` answers it. Safe: the machine would only stop too early. -/
  | notModelled (mnemonic : String)
deriving DecidableEq, Repr, Inhabited

/-- Memory: the cells that are not empty, by address, addresses strictly rising; an unlisted address holds the empty cell,
its reset content (R20, R22, R27). -/
abbrev Memory := List (Nat × Cell)

/-- The complete architectural state (R10). PC and RS range over `0 .. MEM_SIZE` (R14, R17; log entry 5). -/
structure State where
  /-- Accumulator A (R11). -/
  a : Int
  /-- Accumulator B (R11). -/
  b : Int
  /-- Index register X (R12). -/
  x : Int
  /-- Stack pointer SP (R13). -/
  sp : Int
  /-- Program counter PC (R14). -/
  pc : Nat
  /-- Subroutine-return slot RS (R17). -/
  rs : Nat
  /-- Zero flag Z (R15). -/
  z : Bool
  /-- Greater flag G (R15). -/
  g : Bool
  /-- Less flag L (R15). -/
  l : Bool
  /-- Halt flag H (R16). -/
  h : Bool
  /-- Fault code FC (R18). -/
  fc : FaultCode
  /-- Fault information FA (R18). -/
  fa : Int
  /-- Memory M (R20). -/
  mem : Memory
deriving DecidableEq, Repr, Inhabited

/-- The reset state: every register, flag and cell 0 (R22). -/
def State.reset : State where
  a := 0
  b := 0
  x := 0
  sp := 0
  pc := 0
  rs := 0
  z := false
  g := false
  l := false
  h := false
  fc := .none
  fa := 0
  mem := []

/-- What an instruction's meaning answers. -/
abbrev Out := Host.Outcome State Fault Refusal

end Sys2Proof.Machine
end

