-- ==== Sys2Proof/Machine/Ops.lean ====
section
/-! DEFINITION. The named operations over memory and registers, fault entry, and the bitwise operations
(spec/20_memory.md R34 to R36, spec/60_exceptions.md R180 to R186, spec/00_scope.md R5). -/

namespace Sys2Proof.Machine

/-! ### Bitwise operations on integers (R5) -/

/-- `NOT(v) = -v - 1` (R5). -/
def bitNot (v : Int) : Int := -v - 1

/-- `AND` on infinite two's complement (R5): `negSucc n` is the complement of `n`. -/
def bitAnd : Int → Int → Int
  | .ofNat m, .ofNat n => .ofNat (m &&& n)
  | .ofNat m, .negSucc n => .ofNat (m ^^^ (m &&& n))
  | .negSucc m, .ofNat n => .ofNat (n ^^^ (m &&& n))
  | .negSucc m, .negSucc n => .negSucc (m ||| n)

/-- `OR` on infinite two's complement (R5), by complement. -/
def bitOr (v w : Int) : Int := bitNot (bitAnd (bitNot v) (bitNot w))

/-! ### Memory -/

/-- The whole cell at an address; an unlisted one is empty (R21, R27). -/
def Memory.read : Memory → Nat → Cell
  | [], _ => Cell.empty
  | (b, c) :: rest, a => if b = a then c else Memory.read rest a

/-- Every entry but those of one address. -/
def Memory.clear (m : Memory) (a : Nat) : Memory := m.filter (fun e => !decide (e.1 = a))

/-- Insert an entry before the first one with a larger address. -/
def Memory.insert : Memory → Nat → Cell → Memory
  | [], a, c => [(a, c)]
  | (b, d) :: rest, a, c => if a < b then (a, c) :: (b, d) :: rest else (b, d) :: Memory.insert rest a c

/-- Replace one whole cell; writing the empty cell removes the entry, so equal memories are equal lists (R35). -/
def Memory.write (m : Memory) (a : Nat) (c : Cell) : Memory :=
  if c = Cell.empty then Memory.clear m a else Memory.insert (Memory.clear m a) a c

/-- The canonical form: addresses strictly rising and legal, no listed cell empty. -/
abbrev Memory.wf (m : Memory) : Prop :=
  m.Pairwise (fun e f => e.1 < f.1) ∧ ∀ e ∈ m, e.1 < memSize ∧ e.2 ≠ Cell.empty

/-- `Fetch(PC)`: the whole cell, both kinds (R36). -/
def fetch (s : State) : Cell := Memory.read s.mem s.pc

/-! ### Faults (R180, R186) -/

/-- The code FC records (R180). -/
def Raise.code : Raise → FaultCode
  | .addressOutOfRange _ => .addressOutOfRange
  | .notData _ => .notData
  | .valueRange _ => .valueRange

/-- The information FA records (R180). -/
def Raise.info : Raise → Int
  | .addressOutOfRange a => a
  | .notData a => a
  | .valueRange v => v

/-- The fault code as the 2-bit number of R180. -/
def FaultCode.toBits : FaultCode → BitVec 2
  | .none => 0
  | .addressOutOfRange => 1
  | .notData => 2
  | .valueRange => 3

/-- Fault entry: `FC <- code(F)`, `FA <- info`, nothing else (R186). There is no return from a fault (R187). -/
def State.raise (s : State) (r : Raise) : State := { s with fc := r.code, fa := r.info }

/-- The end of an instruction: its assignments all happen, or none does and the fault is recorded (R75). -/
def settle (s : State) (e : Except Raise State) : Out :=
  .next (match e with
    | .ok t => t
    | .error r => s.raise r)

/-- `PC <- PC + 1`, exact (R74). -/
def State.advance (s : State) : State := { s with pc := s.pc + 1 }

/-- The end of an instruction that is no control transfer: `settle` with the default increment (R74). -/
def finish (s : State) (e : Except Raise State) : Out := settle s (e.map State.advance)

/-! ### Checks -/

/-- `0 <= a < MEM_SIZE` (R30). -/
def inRange (a : Int) : Bool := decide (0 ≤ a) && decide (a < memSize)

/-- `CheckWrite`, and the range check of reads and of taken transfers (R34, R35, R160). -/
def checkAddress (a : Int) : Except Raise Unit := if inRange a then .ok () else .error (.addressOutOfRange a)

/-- The check that precedes every register and cell write (R183). -/
def checkValue (cfg : Config) (v : Int) : Except Raise Unit := if cfg.fits v then .ok () else .error (.valueRange v)

/-! ### Data access -/

/-- `MemRead(a, 1)` (R34). -/
def memRead (s : State) (a : Int) : Except Raise Int := do
  checkAddress a
  match (Memory.read s.mem a.toNat).kind with
  | .record => .error (.notData a)
  | .data => .ok (Memory.read s.mem a.toNat).val

/-- `MemWrite(a, 1, v)`: the cell becomes the data cell `(0, 0, v)` whatever it held (R35, R183). -/
def memWrite (cfg : Config) (a v : Int) (s : State) : Except Raise State := do
  checkAddress a
  checkValue cfg v
  .ok { s with mem := Memory.write s.mem a.toNat (Cell.ofValue v) }

/-! ### Value registers -/

/-- The four value registers (R10). -/
inductive Reg where
  | a
  | b
  | x
  | sp
deriving DecidableEq, Repr, Inhabited

def State.reg (s : State) : Reg → Int
  | .a => s.a
  | .b => s.b
  | .x => s.x
  | .sp => s.sp

def State.setReg (s : State) (r : Reg) (v : Int) : State :=
  match r with
  | .a => { s with a := v }
  | .b => { s with b := v }
  | .x => { s with x := v }
  | .sp => { s with sp := v }

/-- `r <- v`, checked under a finite `VW` (R183). -/
def writeReg (cfg : Config) (r : Reg) (v : Int) (s : State) : Except Raise State := do
  checkValue cfg v
  .ok (s.setReg r v)

/-- `r <- f(r)` (R82 to R89). -/
def updateReg (cfg : Config) (r : Reg) (f : Int → Int) (s : State) : Except Raise State := writeReg cfg r (f (s.reg r)) s

/-- `v <- source; r <- v` (R100 to R107). -/
def loadReg (cfg : Config) (r : Reg) (source : Except Raise Int) (s : State) : Except Raise State := do
  let v ← source
  writeReg cfg r v s

/-- `v <- source; r <- f(r, v)` (R120 to R143). -/
def accumulate (cfg : Config) (r : Reg) (f : Int → Int → Int) (source : Except Raise Int) (s : State) :
    Except Raise State := do
  let v ← source
  writeReg cfg r (f (s.reg r) v) s

/-! ### The stack (R13) -/

/-- A push: the source read, then `CheckWrite(SP - 1)`, then the decrement and the write (R150 to R154, R185). -/
def push (cfg : Config) (source : Except Raise Int) (s : State) : Except Raise State := do
  let v ← source
  checkAddress (s.sp - 1)
  let t ← writeReg cfg .sp (s.sp - 1) s
  memWrite cfg t.sp v t

/-- A pop: the read at SP, then the destination, then the increment (R155, R156). -/
def pop (cfg : Config) (r : Reg) (s : State) : Except Raise State := do
  let v ← memRead s s.sp
  let t ← writeReg cfg r v s
  writeReg cfg .sp (t.sp + 1) t

/-! ### Control transfer -/

/-- A taken transfer: the range check, then `PC <- target` (R160). -/
def jumpTo (target : Int) (s : State) : Except Raise State := do
  checkAddress target
  .ok { s with pc := target.toNat }

/-- A conditional jump; the target is checked only when taken (R161 to R166). -/
def branch (taken : Bool) (target : Int) (s : State) : Except Raise State :=
  if taken then jumpTo target s else .ok s.advance

/-- `RS <- PC + 1; PC <- target` after the range check (R167). -/
def call (target : Int) (s : State) : Except Raise State := do
  checkAddress target
  .ok { s with rs := s.pc + 1, pc := target.toNat }

end Sys2Proof.Machine
end

