-- ==== Sys2Proof/Machine/Cycle.lean ====
section
/-! DEFINITION. The execution cycle: run state, no-op cells, fetch and dispatch (spec/40_execution_cycle.md R70 to R72). -/

namespace Sys2Proof.Machine

/-- The run state, a function of the state (R19). -/
def State.runState (s : State) : RunState :=
  if s.fc ≠ .none then .faulted
  else if s.h = true ∨ memSize ≤ s.pc then .halted
  else .running

/-- Why a Halted machine has stopped (R71). -/
def haltReason (s : State) : Fault := if s.h then .halted else .endOfMemory

/-- A data cell or an unassigned opcode: `PC <- PC + 1` and nothing else (R72). -/
def execNoOp (s : State) : Out := .next s.advance

/-- One step with a given dispatch: the stop test comes before the fetch (R70, R71). -/
def cycle (dispatch : Instr → State → Out) (s : State) : Out :=
  match s.runState with
  | .faulted => .fault .faulted
  | .halted => .fault (haltReason s)
  | .running =>
    match decode (fetch s) with
    | .ok i => dispatch i s
    | .error _ => execNoOp s

/-- The host places a cell; only an address of memory can hold one (R192, R201). -/
def loadCell (s : State) (a : Nat) (c : Cell) : State :=
  if a < memSize then { s with mem := Memory.write s.mem a c } else s

end Sys2Proof.Machine
end

