-- ==== Sys2Proof/Machine/Flags.lean ====
section
/-! DEFINITION. The sticky flags: how `cmp` sets them and what the conditional jumps test (spec/41_register_ops.md R90,
spec/45_control_transfer.md R161 to R166). -/

namespace Sys2Proof.Machine

/-- `cmp`'s flags: `d = A - B` sets exactly one flag and clears none (R90). -/
def compareFlags (s : State) : State :=
  { s with
    z := s.z || decide (s.a - s.b = 0)
    g := s.g || decide (0 < s.a - s.b)
    l := s.l || decide (s.a - s.b < 0) }

/-- `jne`: `Z = 0` (R161). -/
def condNe (s : State) : Bool := !s.z

/-- `jeq`: `Z = 1` (R162). -/
def condEq (s : State) : Bool := s.z

/-- `jgt`: `G = 1` (R163). -/
def condGt (s : State) : Bool := s.g

/-- `jlt`: `L = 1` (R164). -/
def condLt (s : State) : Bool := s.l

/-- `jge`: `Z = 1` or `G = 1` (R165). -/
def condGe (s : State) : Bool := s.z || s.g

/-- `jle`: `Z = 1` or `L = 1` (R166). -/
def condLe (s : State) : Bool := s.z || s.l

end Sys2Proof.Machine
end

