-- ==== Sys2Proof/Machine/Control.lean ====
section
/-! DEFINITION. Control transfer (spec/45_control_transfer.md R160 to R168). The target is the operand itself. -/

namespace Sys2Proof.Machine

/-- `jmp` D: `PC <- VAL` (R160). -/
def execJmp (target : Int) (s : State) (_cfg : Config := Config.chip) : Out :=
  settle s (jumpTo target s)

/-- `jne` D: taken if `Z = 0` (R161). -/
def execJne (target : Int) (s : State) (_cfg : Config := Config.chip) : Out :=
  settle s (branch (condNe s) target s)

/-- `jeq` D: taken if `Z = 1` (R162). -/
def execJeq (target : Int) (s : State) (_cfg : Config := Config.chip) : Out :=
  settle s (branch (condEq s) target s)

/-- `jgt` D: taken if `G = 1` (R163). -/
def execJgt (target : Int) (s : State) (_cfg : Config := Config.chip) : Out :=
  settle s (branch (condGt s) target s)

/-- `jlt` D: taken if `L = 1` (R164). -/
def execJlt (target : Int) (s : State) (_cfg : Config := Config.chip) : Out :=
  settle s (branch (condLt s) target s)

/-- `jge` D: taken if `Z = 1 or G = 1` (R165). -/
def execJge (target : Int) (s : State) (_cfg : Config := Config.chip) : Out :=
  settle s (branch (condGe s) target s)

/-- `jle` D: taken if `Z = 1 or L = 1` (R166). -/
def execJle (target : Int) (s : State) (_cfg : Config := Config.chip) : Out :=
  settle s (branch (condLe s) target s)

/-- `jsr` D: `RS <- PC + 1; PC <- VAL` (R167). -/
def execJsr (target : Int) (s : State) (_cfg : Config := Config.chip) : Out :=
  settle s (call target s)

/-- `rfs` N: `PC <- RS`, RS unchanged (R168). -/
def execRfs (s : State) (_cfg : Config := Config.chip) : Out :=
  settle s (.ok { s with pc := s.rs })

end Sys2Proof.Machine
end

