-- ==== Sys2Proof/Machine/Operands.lean ====
section
/-! DEFINITION. The operand forms (spec/40_execution_cycle.md R73, spec/42_load_store.md, addressing modes). -/

namespace Sys2Proof.Machine

/-- Format D: `EA = VAL` (R73). -/
def eaDirect (addr : Int) : Int := addr

/-- Format X: `EA = VAL + X`, exact; neither X nor the record changes (R73). -/
def eaIndexed (base : Int) (s : State) : Int := base + s.x

/-- Format I: the operand is the value itself (R46). -/
def immediate (v : Int) : Except Raise Int := .ok v

/-- A source in format D. -/
def direct (addr : Int) (s : State) : Except Raise Int := memRead s (eaDirect addr)

/-- A source in format X. -/
def indexed (base : Int) (s : State) : Except Raise Int := memRead s (eaIndexed base s)

end Sys2Proof.Machine
end

