-- ==== Sys2Proof/Machine/LoadStore.lean ====
section
/-! DEFINITION. Loads and stores (spec/42_load_store.md R100 to R111). -/

namespace Sys2Proof.Machine

/-- `lda` I: `A <- VAL` (R100). -/
def execLdaImm (v : Int) (s : State) (cfg : Config := Config.chip) : Out :=
  finish s (loadReg cfg .a (immediate v) s)

/-- `lda` D: `A <- MemRead(EA)` (R101). -/
def execLdaDir (addr : Int) (s : State) (cfg : Config := Config.chip) : Out :=
  finish s (loadReg cfg .a (direct addr s) s)

/-- `lda` X: `A <- MemRead(EA)` (R102). -/
def execLdaIdx (base : Int) (s : State) (cfg : Config := Config.chip) : Out :=
  finish s (loadReg cfg .a (indexed base s) s)

/-- `ldb` I: `B <- VAL` (R103). -/
def execLdbImm (v : Int) (s : State) (cfg : Config := Config.chip) : Out :=
  finish s (loadReg cfg .b (immediate v) s)

/-- `ldb` D: `B <- MemRead(EA)` (R104). -/
def execLdbDir (addr : Int) (s : State) (cfg : Config := Config.chip) : Out :=
  finish s (loadReg cfg .b (direct addr s) s)

/-- `ldb` X: `B <- MemRead(EA)` (R105). -/
def execLdbIdx (base : Int) (s : State) (cfg : Config := Config.chip) : Out :=
  finish s (loadReg cfg .b (indexed base s) s)

/-- `ldx` I: `X <- VAL` (R106). -/
def execLdxImm (v : Int) (s : State) (cfg : Config := Config.chip) : Out :=
  finish s (loadReg cfg .x (immediate v) s)

/-- `lds` I: `SP <- VAL` (R107). -/
def execLdsImm (v : Int) (s : State) (cfg : Config := Config.chip) : Out :=
  finish s (loadReg cfg .sp (immediate v) s)

/-- `sta` D: `MemWrite(EA, A)` (R108). -/
def execStaDir (addr : Int) (s : State) (cfg : Config := Config.chip) : Out :=
  finish s (memWrite cfg (eaDirect addr) s.a s)

/-- `sta` X: `MemWrite(EA, A)` (R109). -/
def execStaIdx (base : Int) (s : State) (cfg : Config := Config.chip) : Out :=
  finish s (memWrite cfg (eaIndexed base s) s.a s)

/-- `stb` D: `MemWrite(EA, B)` (R110). -/
def execStbDir (addr : Int) (s : State) (cfg : Config := Config.chip) : Out :=
  finish s (memWrite cfg (eaDirect addr) s.b s)

/-- `stb` X: `MemWrite(EA, B)` (R111). -/
def execStbIdx (base : Int) (s : State) (cfg : Config := Config.chip) : Out :=
  finish s (memWrite cfg (eaIndexed base s) s.b s)

end Sys2Proof.Machine
end

