-- ==== Sys2Proof/Machine/OperandArith.lean ====
section
/-! DEFINITION. Accumulator arithmetic and logic with an operand (spec/43_operand_arith_logic.md R120 to R143). -/

namespace Sys2Proof.Machine

/-- The accumulator `suba` immediate works on: B under `suba_as_subb` (R126). -/
def subaImmTarget (cfg : Config) : Reg := if cfg.subiAlias = .subaAsSubb then .b else .a

/-- The accumulator `subb` immediate works on: A under `subb_as_suba` (R129). -/
def subbImmTarget (cfg : Config) : Reg := if cfg.subiAlias = .subbAsSuba then .a else .b

/-- `adda` I: `A <- A + v` (R120). -/
def execAddaImm (v : Int) (s : State) (cfg : Config := Config.chip) : Out :=
  finish s (accumulate cfg .a (· + ·) (immediate v) s)

/-- `adda` D: `A <- A + v` (R121). -/
def execAddaDir (addr : Int) (s : State) (cfg : Config := Config.chip) : Out :=
  finish s (accumulate cfg .a (· + ·) (direct addr s) s)

/-- `adda` X: `A <- A + v` (R122). -/
def execAddaIdx (base : Int) (s : State) (cfg : Config := Config.chip) : Out :=
  finish s (accumulate cfg .a (· + ·) (indexed base s) s)

/-- `addb` I: `B <- B + v` (R123). -/
def execAddbImm (v : Int) (s : State) (cfg : Config := Config.chip) : Out :=
  finish s (accumulate cfg .b (· + ·) (immediate v) s)

/-- `addb` D: `B <- B + v` (R124). -/
def execAddbDir (addr : Int) (s : State) (cfg : Config := Config.chip) : Out :=
  finish s (accumulate cfg .b (· + ·) (direct addr s) s)

/-- `addb` X: `B <- B + v` (R125). -/
def execAddbIdx (base : Int) (s : State) (cfg : Config := Config.chip) : Out :=
  finish s (accumulate cfg .b (· + ·) (indexed base s) s)

/-- `suba` I: one accumulator minus the literal, which one by `SUBI_ALIAS` (R126). -/
def execSubaImm (v : Int) (s : State) (cfg : Config := Config.chip) : Out :=
  finish s (accumulate cfg (subaImmTarget cfg) (· - ·) (immediate v) s)

/-- `suba` D: `A <- A - v` (R127). -/
def execSubaDir (addr : Int) (s : State) (cfg : Config := Config.chip) : Out :=
  finish s (accumulate cfg .a (· - ·) (direct addr s) s)

/-- `suba` X: `A <- A - v` (R128). -/
def execSubaIdx (base : Int) (s : State) (cfg : Config := Config.chip) : Out :=
  finish s (accumulate cfg .a (· - ·) (indexed base s) s)

/-- `subb` I: one accumulator minus the literal, which one by `SUBI_ALIAS` (R129). -/
def execSubbImm (v : Int) (s : State) (cfg : Config := Config.chip) : Out :=
  finish s (accumulate cfg (subbImmTarget cfg) (· - ·) (immediate v) s)

/-- `subb` D: `B <- B - v` (R130). -/
def execSubbDir (addr : Int) (s : State) (cfg : Config := Config.chip) : Out :=
  finish s (accumulate cfg .b (· - ·) (direct addr s) s)

/-- `subb` X: `B <- B - v` (R131). -/
def execSubbIdx (base : Int) (s : State) (cfg : Config := Config.chip) : Out :=
  finish s (accumulate cfg .b (· - ·) (indexed base s) s)

/-- `anda` I: `A <- AND(A, v)` (R132). -/
def execAndaImm (v : Int) (s : State) (cfg : Config := Config.chip) : Out :=
  finish s (accumulate cfg .a bitAnd (immediate v) s)

/-- `anda` D: `A <- AND(A, v)` (R133). -/
def execAndaDir (addr : Int) (s : State) (cfg : Config := Config.chip) : Out :=
  finish s (accumulate cfg .a bitAnd (direct addr s) s)

/-- `anda` X: `A <- AND(A, v)` (R134). -/
def execAndaIdx (base : Int) (s : State) (cfg : Config := Config.chip) : Out :=
  finish s (accumulate cfg .a bitAnd (indexed base s) s)

/-- `andb` I: `B <- AND(B, v)` (R135). -/
def execAndbImm (v : Int) (s : State) (cfg : Config := Config.chip) : Out :=
  finish s (accumulate cfg .b bitAnd (immediate v) s)

/-- `andb` D: `B <- AND(B, v)` (R136). -/
def execAndbDir (addr : Int) (s : State) (cfg : Config := Config.chip) : Out :=
  finish s (accumulate cfg .b bitAnd (direct addr s) s)

/-- `andb` X: `B <- AND(B, v)` (R137). -/
def execAndbIdx (base : Int) (s : State) (cfg : Config := Config.chip) : Out :=
  finish s (accumulate cfg .b bitAnd (indexed base s) s)

/-- `ora` I: `A <- OR(A, v)` (R138). -/
def execOraImm (v : Int) (s : State) (cfg : Config := Config.chip) : Out :=
  finish s (accumulate cfg .a bitOr (immediate v) s)

/-- `ora` D: `A <- OR(A, v)` (R139). -/
def execOraDir (addr : Int) (s : State) (cfg : Config := Config.chip) : Out :=
  finish s (accumulate cfg .a bitOr (direct addr s) s)

/-- `ora` X: `A <- OR(A, v)` (R140). -/
def execOraIdx (base : Int) (s : State) (cfg : Config := Config.chip) : Out :=
  finish s (accumulate cfg .a bitOr (indexed base s) s)

/-- `orb` I: `B <- OR(B, v)` (R141). -/
def execOrbImm (v : Int) (s : State) (cfg : Config := Config.chip) : Out :=
  finish s (accumulate cfg .b bitOr (immediate v) s)

/-- `orb` D: `B <- OR(B, v)` (R142). -/
def execOrbDir (addr : Int) (s : State) (cfg : Config := Config.chip) : Out :=
  finish s (accumulate cfg .b bitOr (direct addr s) s)

/-- `orb` X: `B <- OR(B, v)` (R143). -/
def execOrbIdx (base : Int) (s : State) (cfg : Config := Config.chip) : Out :=
  finish s (accumulate cfg .b bitOr (indexed base s) s)

end Sys2Proof.Machine
end

