-- ==== Sys2Proof/Machine/RegisterOps.lean ====
section
/-! DEFINITION. Register-only instructions (spec/41_register_ops.md R80 to R91). -/

namespace Sys2Proof.Machine

/-- `add` N: `B <- A + B` (R80). -/
def execAdd (s : State) (cfg : Config := Config.chip) : Out :=
  finish s (writeReg cfg .b (s.a + s.b) s)

/-- `sub` N: `B <- A - B` (R81). -/
def execSub (s : State) (cfg : Config := Config.chip) : Out :=
  finish s (writeReg cfg .b (s.a - s.b) s)

/-- `inca` N: `A <- A + 1` (R82). -/
def execInca (s : State) (cfg : Config := Config.chip) : Out :=
  finish s (updateReg cfg .a (· + 1) s)

/-- `incb` N: `B <- B + 1` (R83). -/
def execIncb (s : State) (cfg : Config := Config.chip) : Out :=
  finish s (updateReg cfg .b (· + 1) s)

/-- `deca` N: `A <- A - 1` (R84). -/
def execDeca (s : State) (cfg : Config := Config.chip) : Out :=
  finish s (updateReg cfg .a (· - 1) s)

/-- `decb` N: `B <- B - 1` (R85). -/
def execDecb (s : State) (cfg : Config := Config.chip) : Out :=
  finish s (updateReg cfg .b (· - 1) s)

/-- `inva` N: `A <- NOT(A)` (R86). -/
def execInva (s : State) (cfg : Config := Config.chip) : Out :=
  finish s (updateReg cfg .a bitNot s)

/-- `invb` N: `B <- NOT(B)` (R87). -/
def execInvb (s : State) (cfg : Config := Config.chip) : Out :=
  finish s (updateReg cfg .b bitNot s)

/-- `incx` N: `X <- X + 1` (R88). -/
def execIncx (s : State) (cfg : Config := Config.chip) : Out :=
  finish s (updateReg cfg .x (· + 1) s)

/-- `decx` N: `X <- X - 1` (R89). -/
def execDecx (s : State) (cfg : Config := Config.chip) : Out :=
  finish s (updateReg cfg .x (· - 1) s)

/-- `cmp` N: sticky flags of `A - B`; the difference is written nowhere (R90). -/
def execCmp (s : State) (_cfg : Config := Config.chip) : Out :=
  finish s (.ok (compareFlags s))

/-- `hlt` N: `H <- 1` and `PC <- PC + 1` (R91). -/
def execHlt (s : State) (_cfg : Config := Config.chip) : Out :=
  finish s (.ok { s with h := true })

end Sys2Proof.Machine
end

