-- ==== Sys2Proof/Machine/Stack.lean ====
section
/-! DEFINITION. Stack instructions (spec/44_stack.md R150 to R156). -/

namespace Sys2Proof.Machine

/-- `psha` N: push A (R150). -/
def execPsha (s : State) (cfg : Config := Config.chip) : Out :=
  finish s (push cfg (.ok s.a) s)

/-- `pshb` N: push B (R151). -/
def execPshb (s : State) (cfg : Config := Config.chip) : Out :=
  finish s (push cfg (.ok s.b) s)

/-- `psh` I: push the literal (R152). -/
def execPshImm (v : Int) (s : State) (cfg : Config := Config.chip) : Out :=
  finish s (push cfg (immediate v) s)

/-- `psh` D: push the content of a fixed address (R153). -/
def execPshDir (addr : Int) (s : State) (cfg : Config := Config.chip) : Out :=
  finish s (push cfg (direct addr s) s)

/-- `psh` X: push the content of base plus X (R154). -/
def execPshIdx (base : Int) (s : State) (cfg : Config := Config.chip) : Out :=
  finish s (push cfg (indexed base s) s)

/-- `popa` N: pop into A (R155). -/
def execPopa (s : State) (cfg : Config := Config.chip) : Out :=
  finish s (pop cfg .a s)

/-- `popb` N: pop into B (R156). -/
def execPopb (s : State) (cfg : Config := Config.chip) : Out :=
  finish s (pop cfg .b s)

end Sys2Proof.Machine
end

