-- ==== Sys2Proof/Machine/Dispatch.lean ====
section
/-! DEFINITION. Dispatch: each instruction's meaning (spec/40_execution_cycle.md R77). -/

namespace Sys2Proof.Machine

def exec (i : Instr) (s : State) : Host.Outcome State Fault Refusal :=
  match i with
  | .ldaImm v => Sys2Proof.Machine.execLdaImm v s
  | .ldaDir addr => Sys2Proof.Machine.execLdaDir addr s
  | .ldaIdx base => Sys2Proof.Machine.execLdaIdx base s
  | .ldbImm v => Sys2Proof.Machine.execLdbImm v s
  | .ldbDir addr => Sys2Proof.Machine.execLdbDir addr s
  | .ldbIdx base => Sys2Proof.Machine.execLdbIdx base s
  | .ldxImm v => Sys2Proof.Machine.execLdxImm v s
  | .ldsImm v => Sys2Proof.Machine.execLdsImm v s
  | .staDir addr => Sys2Proof.Machine.execStaDir addr s
  | .staIdx base => Sys2Proof.Machine.execStaIdx base s
  | .stbDir addr => Sys2Proof.Machine.execStbDir addr s
  | .stbIdx base => Sys2Proof.Machine.execStbIdx base s
  | .addaImm v => Sys2Proof.Machine.execAddaImm v s
  | .addaDir addr => Sys2Proof.Machine.execAddaDir addr s
  | .addaIdx base => Sys2Proof.Machine.execAddaIdx base s
  | .addbImm v => Sys2Proof.Machine.execAddbImm v s
  | .addbDir addr => Sys2Proof.Machine.execAddbDir addr s
  | .addbIdx base => Sys2Proof.Machine.execAddbIdx base s
  | .subaImm v => Sys2Proof.Machine.execSubaImm v s
  | .subaDir addr => Sys2Proof.Machine.execSubaDir addr s
  | .subaIdx base => Sys2Proof.Machine.execSubaIdx base s
  | .subbImm v => Sys2Proof.Machine.execSubbImm v s
  | .subbDir addr => Sys2Proof.Machine.execSubbDir addr s
  | .subbIdx base => Sys2Proof.Machine.execSubbIdx base s
  | .andaImm v => Sys2Proof.Machine.execAndaImm v s
  | .andaDir addr => Sys2Proof.Machine.execAndaDir addr s
  | .andaIdx base => Sys2Proof.Machine.execAndaIdx base s
  | .andbImm v => Sys2Proof.Machine.execAndbImm v s
  | .andbDir addr => Sys2Proof.Machine.execAndbDir addr s
  | .andbIdx base => Sys2Proof.Machine.execAndbIdx base s
  | .oraImm v => Sys2Proof.Machine.execOraImm v s
  | .oraDir addr => Sys2Proof.Machine.execOraDir addr s
  | .oraIdx base => Sys2Proof.Machine.execOraIdx base s
  | .orbImm v => Sys2Proof.Machine.execOrbImm v s
  | .orbDir addr => Sys2Proof.Machine.execOrbDir addr s
  | .orbIdx base => Sys2Proof.Machine.execOrbIdx base s
  | .pshImm v => Sys2Proof.Machine.execPshImm v s
  | .pshDir addr => Sys2Proof.Machine.execPshDir addr s
  | .pshIdx base => Sys2Proof.Machine.execPshIdx base s
  | .add => Sys2Proof.Machine.execAdd s
  | .sub => Sys2Proof.Machine.execSub s
  | .inca => Sys2Proof.Machine.execInca s
  | .incb => Sys2Proof.Machine.execIncb s
  | .deca => Sys2Proof.Machine.execDeca s
  | .decb => Sys2Proof.Machine.execDecb s
  | .inva => Sys2Proof.Machine.execInva s
  | .invb => Sys2Proof.Machine.execInvb s
  | .incx => Sys2Proof.Machine.execIncx s
  | .decx => Sys2Proof.Machine.execDecx s
  | .cmp => Sys2Proof.Machine.execCmp s
  | .hlt => Sys2Proof.Machine.execHlt s
  | .psha => Sys2Proof.Machine.execPsha s
  | .pshb => Sys2Proof.Machine.execPshb s
  | .popa => Sys2Proof.Machine.execPopa s
  | .popb => Sys2Proof.Machine.execPopb s
  | .jmp target => Sys2Proof.Machine.execJmp target s
  | .jne target => Sys2Proof.Machine.execJne target s
  | .jeq target => Sys2Proof.Machine.execJeq target s
  | .jgt target => Sys2Proof.Machine.execJgt target s
  | .jlt target => Sys2Proof.Machine.execJlt target s
  | .jge target => Sys2Proof.Machine.execJge target s
  | .jle target => Sys2Proof.Machine.execJle target s
  | .jsr target => Sys2Proof.Machine.execJsr target s
  | .rfs => Sys2Proof.Machine.execRfs s

end Sys2Proof.Machine
end

