-- ==== Sys2Proof/Machine/Step.lean ====
section
/-! DEFINITION. One step of the engine (spec/40_execution_cycle.md R70), and the placing of an instruction where the next
step fetches (spec/60_exceptions.md R192; log entry 6). -/

namespace Sys2Proof.Machine

/-- One fetch-decode-execute cycle (R70). -/
def step (s : State) : Host.Outcome State Fault Refusal := cycle exec s

/-- The state with the cell of number `w` (its bits above `nbits` zero) at PC. -/
def State.withFetchWord (s : State) (nbits w : Nat) : State := loadCell s s.pc (Cell.ofWord (w % 2 ^ nbits : Nat))

end Sys2Proof.Machine
end

