-- ==== Sys2Proof/Machine/HostInterface.lean ====
section
/-! DEFINITION. The host's five interactions with the engine (spec/60_exceptions.md R192, spec/70_reset_and_hazards.md R200,
R201). The phase belongs to the host, not to the engine's state (R10; log entry 7). A move the interface does not have is
`none` (93 U29). -/

namespace Sys2Proof.Machine

/-- Before or after `start` (R192). -/
inductive Phase where
  | loading
  | started
deriving DecidableEq, Repr, Inhabited

/-- The engine as the host holds it. -/
structure Session where
  phase : Phase
  engine : State
deriving DecidableEq, Repr, Inhabited

/-- reset, any time: the reset state, ready to be loaded (R200). -/
def hostReset (_ : Session) : Session := ⟨.loading, State.reset⟩

/-- load image, only between reset and start: any cell the memory can hold, at any address of it (R192, R201). -/
def hostLoad (a : Int) (c : Cell) (h : Session) (cfg : Config := Config.chip) : Option Session :=
  match h.phase with
  | .started => none
  | .loading => if inRange a && cfg.fits c.val then some { h with engine := loadCell h.engine a.toNat c } else none

/-- start, once, after load (R192). -/
def hostStart (h : Session) : Option Session :=
  match h.phase with
  | .started => none
  | .loading => some { h with phase := .started }

/-- The engine's own move, one step after start; `none` before start and in a stopped state (R71, R76). -/
def engineMove (h : Session) : Option Session :=
  match h.phase with
  | .loading => none
  | .started =>
    match step h.engine with
    | .next t => some { h with engine := t }
    | .fault _ => none
    | .refused _ => none

/-- observe run state, any time: Running, Halted or Faulted, and FC, FA (R192). -/
def hostObserve (h : Session) : RunState × FaultCode × Int := (h.engine.runState, h.engine.fc, h.engine.fa)

/-- read back, only when Halted or Faulted: every register, flag and cell (R192). -/
def hostReadBack (h : Session) : Option State :=
  match h.engine.runState with
  | .running => none
  | .halted => some h.engine
  | .faulted => some h.engine

/-- Write the cells of an assembled image at addresses `a`, `a+1`, … (R61, R201). -/
def loadImage : List Cell → Nat → State → State
  | [], _, s => s
  | c :: rest, a, s => loadImage rest (a + 1) (loadCell s a c)

end Sys2Proof.Machine
end

