-- ==== Sys2Proof/Machine/Assembler.lean ====
section
/-! DEFINITION. The two-pass assembler, in scope as the toolchain's syntax (spec/00_scope.md R3, spec/30_encoding.md R54 to
R66). It is no part of the engine: it turns source text into the image that the host loads. Log entry 8 names what the spec
leaves open here. -/

namespace Sys2Proof.Machine

/-- A token: a run of characters without white space (R54). -/
abbrev Token := List Char

/-- Why the assembler refuses a text (R58, but for `labelPastEnd` and one case of `badHex`). -/
inductive AsmError where
  /-- A label reference that is not in the symbol table: fatal, with the name. -/
  | unresolvedLabel (name : List Char)
  /-- An operand at index 0 or after a token that is not a mnemonic. -/
  | strayOperand
  /-- An operand after a format-N mnemonic. -/
  | operandOfImplied
  /-- A reference to a label whose index is no 16-bit address (R46, R48): the end label of a text that fills memory.
  DESIGN CHOICE (log entry 8). -/
  | labelPastEnd (name : List Char)
  /-- A mode that the family lacks. -/
  | modeLacking
  /-- A mnemonic that needs an operand and has none. -/
  | missingOperand
  /-- A hex literal with no digit, more than 4 digits, or a non-hex digit; and, a DESIGN CHOICE (log entry 8), an index form
  without a hex literal. -/
  | badHex
  /-- More than `MEM_SIZE` non-label tokens. -/
  | tooLong
deriving DecidableEq, Repr, Inhabited

/-! ### Source text to tokens (R54) -/

def isBlank (c : Char) : Bool := c = ' ' || c = '\t'

/-- Cut at every character that satisfies `p`. -/
def cutAt (p : Char → Bool) : List Char → List (List Char)
  | [] => [[]]
  | c :: cs =>
    if p c then [] :: cutAt p cs
    else
      match cutAt p cs with
      | [] => [[c]]
      | w :: ws => (c :: w) :: ws

/-- A line whose first non-blank character is `;` is ignored (R54). -/
def isComment (line : List Char) : Bool := (line.dropWhile isBlank).head? == some ';'

/-- Lines without comment lines, cut at blanks into one stream (R54). -/
def tokenize (source : List Char) : List Token :=
  (((cutAt (· = '\n') source).filter (fun line => !isComment line)).flatMap (cutAt isBlank)).filter (fun t => !t.isEmpty)

/-! ### Pass 1: labels (R55) -/

/-- The latest definition of a name comes first, so that the last one wins (R55). -/
abbrev SymbolTable := List (List Char × Nat)

/-- The name a label definition records: a nonempty name with the trailing delimiter `:` (R55). -/
def labelName (t : Token) : Option (List Char) :=
  match t.reverse with
  | ':' :: c :: name => some (c :: name).reverse
  | _ => none

/-- Label definitions record the index of the next emitted token; all other tokens are emitted (R55). -/
def labelPass : List Token → Nat → SymbolTable → List Token × SymbolTable
  | [], _, table => ([], table)
  | t :: rest, i, table =>
    match labelName t with
    | some name => labelPass rest i ((name, i) :: table)
    | none =>
      let r := labelPass rest (i + 1) table
      (t :: r.1, r.2)

/-- The index a name stands for (R55). -/
def lookupLabel (table : SymbolTable) (name : List Char) : Option Nat := (table.find? (fun e => e.1 == name)).map (·.2)

/-! ### Tokens (R56, R57, R59) -/

def hexDigit (c : Char) : Option Nat :=
  if '0' ≤ c ∧ c ≤ '9' then some (c.toNat - '0'.toNat)
  else if 'a' ≤ c ∧ c ≤ 'f' then some (c.toNat - 'a'.toNat + 10)
  else if 'A' ≤ c ∧ c ≤ 'F' then some (c.toNat - 'A'.toNat + 10)
  else none

def hexDigits : List Char → Nat → Option Nat
  | [], n => some n
  | c :: cs, n =>
    match hexDigit c with
    | some d => hexDigits cs (n * 16 + d)
    | none => none

/-- The digits of a hex literal: one to four hex digits (R57, R58). -/
def hexValue (ds : List Char) : Except AsmError Nat :=
  if ds.isEmpty || 4 < ds.length then .error .badHex
  else
    match hexDigits ds 0 with
    | some v => .ok v
    | none => .error .badHex

/-- An operand before its label is resolved (R57). -/
inductive OperandToken where
  | literal (format : Format) (v : Nat)
  | reference (name : List Char)
deriving DecidableEq, Repr, Inhabited

/-- The text between brackets: indexed, a direct address, or a label reference (R56 step 3). -/
def bracketed : List Char → Except AsmError OperandToken
  | 'X' :: '+' :: '0' :: 'x' :: ds => (hexValue ds).map (.literal .indexed)
  | 'x' :: '+' :: '0' :: 'x' :: ds => (hexValue ds).map (.literal .indexed)
  | 'X' :: '+' :: _ => .error .badHex
  | 'x' :: '+' :: _ => .error .badHex
  | '0' :: 'x' :: ds => (hexValue ds).map (.literal .direct)
  | name => .ok (.reference name)

/-- What a token of the stream is (R56). -/
inductive TokenClass where
  | mnemonic
  | operand (o : Except AsmError OperandToken)
  | inert

/-- The operand grammar (R57); any other word is no operand token. -/
def classifyOperand : Token → TokenClass
  | '0' :: 'x' :: ds => .operand ((hexValue ds).map (.literal .immediate))
  | '#' :: '0' :: 'x' :: ds => .operand ((hexValue ds).map (.literal .immediate))
  | '[' :: rest =>
    match rest.reverse with
    | ']' :: inner => .operand (bracketed inner.reverse)
    | _ => .inert
  | _ => .inert

/-- The rows of a mnemonic, matched exactly (R59). -/
def mnemonicRows (t : Token) : List OpcodeRow := opcodeMap.filter (fun r => r.mnemonic.toList == t)

def classify (t : Token) : TokenClass := if (mnemonicRows t).isEmpty then classifyOperand t else .mnemonic

/-- Whether a token is an operand token. -/
def isOperand (t : Token) : Bool :=
  match classify t with
  | .operand _ => true
  | .mnemonic => false
  | .inert => false

/-- The row of a mnemonic in one format (R59: mnemonic, then addressing mode). -/
def rowOf (t : Token) (f : Format) : Option OpcodeRow := (mnemonicRows t).find? (fun r => r.format == f)

/-! ### Pass 2: encoding (R56, R61) -/

/-- The format and value of an operand token; a label reference is direct (R56 step 3, R57), and its value is a 16-bit
address (R46, R48; log entry 8). -/
def resolve (table : SymbolTable) : OperandToken → Except AsmError (Format × Nat)
  | .literal f v => .ok (f, v)
  | .reference name =>
    match lookupLabel table name with
    | some v => if v ≤ 0xFFFF then .ok (.direct, v) else .error (.labelPastEnd name)
    | none => .error (.unresolvedLabel name)

/-- The record of a mnemonic with its operand token (R56). -/
def recordOf (table : SymbolTable) (m : Token) (o : Except AsmError OperandToken) : Except AsmError Cell := do
  let token ← o
  let operand ← resolve table token
  match rowOf m operand.1 with
  | some r => .ok ⟨.record, r.op, operand.2⟩
  | none => .error .modeLacking

/-- One cell per token: a record for a mnemonic, an empty cell for its operand token and for an inert token (R56, R61). -/
def encodePass (table : SymbolTable) : List Token → Except AsmError (List Cell)
  | [] => .ok []
  | t :: rest =>
    match classify t with
    | .operand _ => .error .strayOperand
    | .inert => (encodePass table rest).map (Cell.empty :: ·)
    | .mnemonic =>
      match rowOf t .implied with
      | some r =>
        if rest.head?.any isOperand then .error .operandOfImplied
        else (encodePass table rest).map ((⟨.record, r.op, 0⟩ : Cell) :: ·)
      | none =>
        match rest with
        | [] => .error .missingOperand
        | o :: rest' =>
          match classify o with
          | .mnemonic => .error .missingOperand
          | .inert => .error .missingOperand
          | .operand token => do
            let c ← recordOf table t token
            let cells ← encodePass table rest'
            .ok (c :: Cell.empty :: cells)

/-- The assembler: the image of a source text, its cell `i` for address `i` (R61). -/
def assembleTokens (tokens : List Token) : Except AsmError (List Cell) :=
  let p := labelPass tokens 0 []
  if memSize < p.1.length then .error .tooLong else encodePass p.2 p.1

def assemble (source : List Char) : Except AsmError (List Cell) := assembleTokens (tokenize source)

/-- The start state of a run of an image (R201). -/
def startState (image : List Cell) : State := loadImage image 0 State.reset

end Sys2Proof.Machine
end

