-- ==== Sys2Proof/Machine/Configured.lean ====
section
/-! DEFINITION. The same machine with its two open parameters as an argument (spec/00_scope.md R4): what `exec` and `step`
are for `Config.chip`, these are for any `VW` and `SUBI_ALIAS`. Claims that compare parameter values, and tests on the spec's
vectors, are stated with them. -/

namespace Sys2Proof.Machine

def execIn (cfg : Config) (i : Instr) (s : State) : Host.Outcome State Fault Refusal :=
  match i with
  | .ldaImm v => execLdaImm v s cfg
  | .ldaDir addr => execLdaDir addr s cfg
  | .ldaIdx base => execLdaIdx base s cfg
  | .ldbImm v => execLdbImm v s cfg
  | .ldbDir addr => execLdbDir addr s cfg
  | .ldbIdx base => execLdbIdx base s cfg
  | .ldxImm v => execLdxImm v s cfg
  | .ldsImm v => execLdsImm v s cfg
  | .staDir addr => execStaDir addr s cfg
  | .staIdx base => execStaIdx base s cfg
  | .stbDir addr => execStbDir addr s cfg
  | .stbIdx base => execStbIdx base s cfg
  | .addaImm v => execAddaImm v s cfg
  | .addaDir addr => execAddaDir addr s cfg
  | .addaIdx base => execAddaIdx base s cfg
  | .addbImm v => execAddbImm v s cfg
  | .addbDir addr => execAddbDir addr s cfg
  | .addbIdx base => execAddbIdx base s cfg
  | .subaImm v => execSubaImm v s cfg
  | .subaDir addr => execSubaDir addr s cfg
  | .subaIdx base => execSubaIdx base s cfg
  | .subbImm v => execSubbImm v s cfg
  | .subbDir addr => execSubbDir addr s cfg
  | .subbIdx base => execSubbIdx base s cfg
  | .andaImm v => execAndaImm v s cfg
  | .andaDir addr => execAndaDir addr s cfg
  | .andaIdx base => execAndaIdx base s cfg
  | .andbImm v => execAndbImm v s cfg
  | .andbDir addr => execAndbDir addr s cfg
  | .andbIdx base => execAndbIdx base s cfg
  | .oraImm v => execOraImm v s cfg
  | .oraDir addr => execOraDir addr s cfg
  | .oraIdx base => execOraIdx base s cfg
  | .orbImm v => execOrbImm v s cfg
  | .orbDir addr => execOrbDir addr s cfg
  | .orbIdx base => execOrbIdx base s cfg
  | .pshImm v => execPshImm v s cfg
  | .pshDir addr => execPshDir addr s cfg
  | .pshIdx base => execPshIdx base s cfg
  | .add => execAdd s cfg
  | .sub => execSub s cfg
  | .inca => execInca s cfg
  | .incb => execIncb s cfg
  | .deca => execDeca s cfg
  | .decb => execDecb s cfg
  | .inva => execInva s cfg
  | .invb => execInvb s cfg
  | .incx => execIncx s cfg
  | .decx => execDecx s cfg
  | .cmp => execCmp s cfg
  | .hlt => execHlt s cfg
  | .psha => execPsha s cfg
  | .pshb => execPshb s cfg
  | .popa => execPopa s cfg
  | .popb => execPopb s cfg
  | .jmp target => execJmp target s cfg
  | .jne target => execJne target s cfg
  | .jeq target => execJeq target s cfg
  | .jgt target => execJgt target s cfg
  | .jlt target => execJlt target s cfg
  | .jge target => execJge target s cfg
  | .jle target => execJle target s cfg
  | .jsr target => execJsr target s cfg
  | .rfs => execRfs s cfg

/-- One step under given parameters (R70, R71). -/
def stepIn (cfg : Config) (s : State) : Host.Outcome State Fault Refusal := cycle (execIn cfg) s

end Sys2Proof.Machine
end

