-- ==== Sys2Proof/Machine/Run.lean ====
section
/-! DEFINITION. Runs (spec/40_execution_cycle.md R76). The engine has no step limit (R71); the fuel is this function's own,
and running out of it is neither Halted nor Faulted (93 U14). -/

namespace Sys2Proof.Machine

/-- Exactly `k` steps, stopping early at a state that has no step. -/
def steps : Nat → State → Out
  | 0, s => .next s
  | k + 1, s =>
    match step s with
    | .next t => steps k t
    | .fault r => .fault r
    | .refused r => .refused r

/-- How a run of at most `k` steps ended, with its last state. -/
inductive RunResult where
  | halted (s : State)
  | faulted (s : State)
  | outOfFuel (s : State)
deriving DecidableEq, Repr, Inhabited

/-- The result a state stands for if no further step is taken (R19). -/
def runResult (s : State) : RunResult :=
  match s.runState with
  | .halted => .halted s
  | .faulted => .faulted s
  | .running => .outOfFuel s

/-- At most `k` steps of a given step function. -/
def runWith (next : State → Out) : Nat → State → RunResult
  | 0, s => runResult s
  | k + 1, s =>
    match next s with
    | .next t => runWith next k t
    | .fault _ => runResult s
    | .refused _ => runResult s

/-- A run of the machine (R76). -/
def run (k : Nat) (s : State) : RunResult := runWith step k s

end Sys2Proof.Machine
end

