-- ==== Sys2Proof/Safety.lean ====
section
/-! DEFINITION. The terms in which claims are stated: what an instruction reads and writes (spec/10_state.md R10,
spec/20_memory.md R31), the invariants (R26), and the shapes of the instruction rules (spec/00_scope.md R8). -/

namespace Sys2Proof

/-- The address an instruction reads data from (R31). -/
def Instr.sourceAddress (i : Instr) (s : Machine.State) : Option Int :=
  match i with
  | .ldaDir addr | .ldbDir addr | .addaDir addr | .addbDir addr | .subaDir addr | .subbDir addr | .andaDir addr
  | .andbDir addr | .oraDir addr | .orbDir addr | .pshDir addr => some addr
  | .ldaIdx base | .ldbIdx base | .addaIdx base | .addbIdx base | .subaIdx base | .subbIdx base | .andaIdx base
  | .andbIdx base | .oraIdx base | .orbIdx base | .pshIdx base => some (base + s.x)
  | .popa | .popb => some s.sp
  | .ldaImm _ | .ldbImm _ | .ldxImm _ | .ldsImm _ | .staDir _ | .staIdx _ | .stbDir _ | .stbIdx _ | .addaImm _
  | .addbImm _ | .subaImm _ | .subbImm _ | .andaImm _ | .andbImm _ | .oraImm _ | .orbImm _ | .pshImm _ | .add | .sub
  | .inca | .incb | .deca | .decb | .inva | .invb | .incx | .decx | .cmp | .hlt | .psha | .pshb | .jmp _ | .jne _
  | .jeq _ | .jgt _ | .jlt _ | .jge _ | .jle _ | .jsr _ | .rfs => none

/-- The address an instruction writes data to (R31). -/
def Instr.targetAddress (i : Instr) (s : Machine.State) : Option Int :=
  match i with
  | .staDir addr | .stbDir addr => some addr
  | .staIdx base | .stbIdx base => some (base + s.x)
  | .pshImm _ | .pshDir _ | .pshIdx _ | .psha | .pshb => some (s.sp - 1)
  | .ldaImm _ | .ldaDir _ | .ldaIdx _ | .ldbImm _ | .ldbDir _ | .ldbIdx _ | .ldxImm _ | .ldsImm _ | .addaImm _
  | .addaDir _ | .addaIdx _ | .addbImm _ | .addbDir _ | .addbIdx _ | .subaImm _ | .subaDir _ | .subaIdx _
  | .subbImm _ | .subbDir _ | .subbIdx _ | .andaImm _ | .andaDir _ | .andaIdx _ | .andbImm _ | .andbDir _
  | .andbIdx _ | .oraImm _ | .oraDir _ | .oraIdx _ | .orbImm _ | .orbDir _ | .orbIdx _ | .add | .sub | .inca | .incb
  | .deca | .decb | .inva | .invb | .incx | .decx | .cmp | .hlt | .popa | .popb | .jmp _ | .jne _ | .jeq _ | .jgt _
  | .jlt _ | .jge _ | .jle _ | .jsr _ | .rfs => none

/-- The value an instruction writes there: A, B, the literal, or the cell it reads (R108 to R111, R150 to R154). -/
def Instr.storedValue (i : Instr) (s : Machine.State) : Option Int :=
  match i with
  | .staDir _ | .staIdx _ | .psha => some s.a
  | .stbDir _ | .stbIdx _ | .pshb => some s.b
  | .pshImm v => some v
  | .pshDir addr => some (Machine.Memory.read s.mem addr.toNat).val
  | .pshIdx base => some (Machine.Memory.read s.mem (base + s.x).toNat).val
  | .ldaImm _ | .ldaDir _ | .ldaIdx _ | .ldbImm _ | .ldbDir _ | .ldbIdx _ | .ldxImm _ | .ldsImm _ | .addaImm _
  | .addaDir _ | .addaIdx _ | .addbImm _ | .addbDir _ | .addbIdx _ | .subaImm _ | .subaDir _ | .subaIdx _
  | .subbImm _ | .subbDir _ | .subbIdx _ | .andaImm _ | .andaDir _ | .andaIdx _ | .andbImm _ | .andbDir _
  | .andbIdx _ | .oraImm _ | .oraDir _ | .oraIdx _ | .orbImm _ | .orbDir _ | .orbIdx _ | .add | .sub | .inca | .incb
  | .deca | .decb | .inva | .invb | .incx | .decx | .cmp | .hlt | .popa | .popb | .jmp _ | .jne _ | .jeq _ | .jgt _
  | .jlt _ | .jge _ | .jle _ | .jsr _ | .rfs => none

/-- The control transfers (R74; 45_control_transfer.md). -/
def Instr.transfers : Instr → Bool
  | .jmp _ | .jne _ | .jeq _ | .jgt _ | .jlt _ | .jge _ | .jle _ | .jsr _ | .rfs => true
  | .ldaImm _ | .ldaDir _ | .ldaIdx _ | .ldbImm _ | .ldbDir _ | .ldbIdx _ | .ldxImm _ | .ldsImm _ | .staDir _
  | .staIdx _ | .stbDir _ | .stbIdx _ | .addaImm _ | .addaDir _ | .addaIdx _ | .addbImm _ | .addbDir _ | .addbIdx _
  | .subaImm _ | .subaDir _ | .subaIdx _ | .subbImm _ | .subbDir _ | .subbIdx _ | .andaImm _ | .andaDir _
  | .andaIdx _ | .andbImm _ | .andbDir _ | .andbIdx _ | .oraImm _ | .oraDir _ | .oraIdx _ | .orbImm _ | .orbDir _
  | .orbIdx _ | .pshImm _ | .pshDir _ | .pshIdx _ | .add | .sub | .inca | .incb | .deca | .decb | .inva | .invb
  | .incx | .decx | .cmp | .hlt | .psha | .pshb | .popa | .popb => false

/-- The writers of A (R10, table). -/
def Instr.writesA (al : SubiAlias) : Instr → Bool
  | .ldaImm _ | .ldaDir _ | .ldaIdx _ | .addaImm _ | .addaDir _ | .addaIdx _ | .andaImm _ | .andaDir _ | .andaIdx _
  | .oraImm _ | .oraDir _ | .oraIdx _ | .subaDir _ | .subaIdx _ | .inca | .deca | .inva | .popa => true
  | .subaImm _ => al != .subaAsSubb
  | .subbImm _ => al == .subbAsSuba
  | .ldbImm _ | .ldbDir _ | .ldbIdx _ | .ldxImm _ | .ldsImm _ | .staDir _ | .staIdx _ | .stbDir _ | .stbIdx _
  | .addbImm _ | .addbDir _ | .addbIdx _ | .subbDir _ | .subbIdx _ | .andbImm _ | .andbDir _ | .andbIdx _ | .orbImm _
  | .orbDir _ | .orbIdx _ | .pshImm _ | .pshDir _ | .pshIdx _ | .add | .sub | .incb | .decb | .invb | .incx | .decx
  | .cmp | .hlt | .psha | .pshb | .popb | .jmp _ | .jne _ | .jeq _ | .jgt _ | .jlt _ | .jge _ | .jle _ | .jsr _
  | .rfs => false

/-- The writers of B (R10, table). -/
def Instr.writesB (al : SubiAlias) : Instr → Bool
  | .ldbImm _ | .ldbDir _ | .ldbIdx _ | .addbImm _ | .addbDir _ | .addbIdx _ | .andbImm _ | .andbDir _ | .andbIdx _
  | .orbImm _ | .orbDir _ | .orbIdx _ | .subbDir _ | .subbIdx _ | .incb | .decb | .invb | .popb | .add | .sub => true
  | .subbImm _ => al != .subbAsSuba
  | .subaImm _ => al == .subaAsSubb
  | .ldaImm _ | .ldaDir _ | .ldaIdx _ | .ldxImm _ | .ldsImm _ | .staDir _ | .staIdx _ | .stbDir _ | .stbIdx _
  | .addaImm _ | .addaDir _ | .addaIdx _ | .subaDir _ | .subaIdx _ | .andaImm _ | .andaDir _ | .andaIdx _ | .oraImm _
  | .oraDir _ | .oraIdx _ | .pshImm _ | .pshDir _ | .pshIdx _ | .inca | .deca | .inva | .incx | .decx | .cmp | .hlt
  | .psha | .pshb | .popa | .jmp _ | .jne _ | .jeq _ | .jgt _ | .jlt _ | .jge _ | .jle _ | .jsr _ | .rfs => false

/-- The writers of X (R10, table). -/
def Instr.writesX : Instr → Bool
  | .ldxImm _ | .incx | .decx => true
  | .ldaImm _ | .ldaDir _ | .ldaIdx _ | .ldbImm _ | .ldbDir _ | .ldbIdx _ | .ldsImm _ | .staDir _ | .staIdx _
  | .stbDir _ | .stbIdx _ | .addaImm _ | .addaDir _ | .addaIdx _ | .addbImm _ | .addbDir _ | .addbIdx _ | .subaImm _
  | .subaDir _ | .subaIdx _ | .subbImm _ | .subbDir _ | .subbIdx _ | .andaImm _ | .andaDir _ | .andaIdx _
  | .andbImm _ | .andbDir _ | .andbIdx _ | .oraImm _ | .oraDir _ | .oraIdx _ | .orbImm _ | .orbDir _ | .orbIdx _
  | .pshImm _ | .pshDir _ | .pshIdx _ | .add | .sub | .inca | .incb | .deca | .decb | .inva | .invb | .cmp | .hlt
  | .psha | .pshb | .popa | .popb | .jmp _ | .jne _ | .jeq _ | .jgt _ | .jlt _ | .jge _ | .jle _ | .jsr _ | .rfs => false

/-- The writers of SP (R10, table). -/
def Instr.writesSP : Instr → Bool
  | .ldsImm _ | .psha | .pshb | .pshImm _ | .pshDir _ | .pshIdx _ | .popa | .popb => true
  | .ldaImm _ | .ldaDir _ | .ldaIdx _ | .ldbImm _ | .ldbDir _ | .ldbIdx _ | .ldxImm _ | .staDir _ | .staIdx _
  | .stbDir _ | .stbIdx _ | .addaImm _ | .addaDir _ | .addaIdx _ | .addbImm _ | .addbDir _ | .addbIdx _ | .subaImm _
  | .subaDir _ | .subaIdx _ | .subbImm _ | .subbDir _ | .subbIdx _ | .andaImm _ | .andaDir _ | .andaIdx _
  | .andbImm _ | .andbDir _ | .andbIdx _ | .oraImm _ | .oraDir _ | .oraIdx _ | .orbImm _ | .orbDir _ | .orbIdx _
  | .add | .sub | .inca | .incb | .deca | .decb | .inva | .invb | .incx | .decx | .cmp | .hlt | .jmp _ | .jne _
  | .jeq _ | .jgt _ | .jlt _ | .jge _ | .jle _ | .jsr _ | .rfs => false

namespace Machine

/-- The machine's `VW` can hold the value (R183); every value fits the reference `VW`. -/
abbrev Fits (v : Int) : Prop := Config.chip.fits v = true

/-- A data read at `a` answers without a fault (R34). -/
abbrev Readable (s : State) (a : Int) : Prop :=
  inRange a = true ∧ (Memory.read s.mem a.toNat).kind = .data

/-- The cell at `a` is an instruction record (R21). -/
abbrev HoldsRecord (s : State) (a : Int) : Prop :=
  inRange a = true ∧ (Memory.read s.mem a.toNat).kind = .record

/-- The value a data read at `a` returns (R34). -/
abbrev contentAt (s : State) (a : Int) : Int := (Memory.read s.mem a.toNat).val

/-! ### Invariants -/

/-- The consequences of R26 about one state, with the canonical form of the memory. -/
structure State.Inv (s : State) : Prop where
  /-- `0 <= PC <= MEM_SIZE` (R14). -/
  pc_le : s.pc ≤ memSize
  /-- `0 <= RS <= MEM_SIZE` (R17). -/
  rs_le : s.rs ≤ memSize
  /-- Equal memories are equal lists. -/
  mem_wf : Memory.wf s.mem
  /-- "every `K = 0` cell has `OP = 0`" (R26). -/
  data_op : ∀ a, (Memory.read s.mem a).kind = .data → (Memory.read s.mem a).op = 0

/-- Every value register and every cell holds a value that `VW` can represent (R183). -/
structure State.Representable (cfg : Config) (s : State) : Prop where
  a_fits : cfg.fits s.a = true
  b_fits : cfg.fits s.b = true
  x_fits : cfg.fits s.x = true
  sp_fits : cfg.fits s.sp = true
  mem_fits : ∀ a, cfg.fits (Memory.read s.mem a).val = true

/-! ### Shapes of the instruction rules (R8: encoding, effect, faults) -/

/-- *Encoding*: the record with this `OP` is this instruction, `VAL` its operand (R49). -/
def Decodes (op : BitVec 8) (i : Int → Instr) : Prop := ∀ v, decode ⟨.record, op, v⟩ = .ok (i v)

/-- A register write of `value s` through `dest`, then PC+1: it completes where the value fits, and under a `VW` that cannot
hold the value it raises `ValueRange` and does nothing else (R183). -/
def WritesValue (i : Instr) (value : State → Int) (dest : State → Int → State) : Prop :=
  ∀ s,
    (Fits (value s) → exec i s = .next { dest s (value s) with pc := s.pc + 1 }) ∧
    ∀ cfg : Config, cfg.fits (value s) = false → execIn cfg i s = .next (s.raise (.valueRange (value s)))

/-- A memory source at `ea`: out of range, then a record there, then the write of `value` of what was read (R34, R185). -/
def WritesFromSource (i : Instr) (ea : State → Int) (value : State → Int → Int) (dest : State → Int → State) : Prop :=
  ∀ s,
    (inRange (ea s) = false → exec i s = .next (s.raise (.addressOutOfRange (ea s)))) ∧
    (HoldsRecord s (ea s) → exec i s = .next (s.raise (.notData (ea s)))) ∧
    (Readable s (ea s) → Fits (value s (contentAt s (ea s))) →
      exec i s = .next { dest s (value s (contentAt s (ea s))) with pc := s.pc + 1 }) ∧
    ∀ cfg : Config, Readable s (ea s) → cfg.fits (value s (contentAt s (ea s))) = false →
      execIn cfg i s = .next (s.raise (.valueRange (value s (contentAt s (ea s)))))

/-- The bits of `r` are `f` of the bits of `v` and `w`, all of them, in infinite two's complement (R5). -/
def BitsOf (f : Bool → Bool → Bool) (r v w : Int) : Prop := ∀ k, valueBit r k = f (valueBit v k) (valueBit w k)

/-- A bitwise write with a literal; representable operands give a representable result, so it never faults. -/
def CombinesLiteral (i : Int → Instr) (f : Bool → Bool → Bool) (old : State → Int) (dest : State → Int → State) : Prop :=
  ∀ v s, Fits (old s) → Fits v →
    ∃ r, BitsOf f r (old s) v ∧ exec (i v) s = .next { dest s r with pc := s.pc + 1 }

/-- A bitwise write with a memory source. -/
def CombinesSource (i : Instr) (ea : State → Int) (f : Bool → Bool → Bool) (old : State → Int)
    (dest : State → Int → State) : Prop :=
  ∀ s,
    (inRange (ea s) = false → exec i s = .next (s.raise (.addressOutOfRange (ea s)))) ∧
    (HoldsRecord s (ea s) → exec i s = .next (s.raise (.notData (ea s)))) ∧
    (Readable s (ea s) → Fits (old s) → Fits (contentAt s (ea s)) →
      ∃ r, BitsOf f r (old s) (contentAt s (ea s)) ∧ exec i s = .next { dest s r with pc := s.pc + 1 })

/-- The next state of an instruction that stores `v` at `a` and changes `sp` to `sp'`: the cell at `a` is the data cell
`(0, 0, v)`, every other cell reads as before, every other field but PC is unchanged. -/
def StoredAt (s t : State) (a v sp' : Int) : Prop :=
  Memory.read t.mem a.toNat = ⟨.data, 0, v⟩ ∧
  (∀ b, b ≠ a.toNat → Memory.read t.mem b = Memory.read s.mem b) ∧
  t = { s with sp := sp', mem := t.mem, pc := s.pc + 1 }

/-- A store of `value s` at `ea` (R35), refused by a `VW` that cannot hold the value (R183). -/
def Stores (i : Instr) (ea value : State → Int) : Prop :=
  ∀ s,
    (inRange (ea s) = false → exec i s = .next (s.raise (.addressOutOfRange (ea s)))) ∧
    (inRange (ea s) = true → Fits (value s) → ∃ t, exec i s = .next t ∧ StoredAt s t (ea s) (value s) s.sp) ∧
    ∀ cfg : Config, inRange (ea s) = true → cfg.fits (value s) = false →
      execIn cfg i s = .next (s.raise (.valueRange (value s)))

/-- A push of a value that needs no memory read, at `SP - 1` (R150 to R152). -/
def PushesValue (i : Instr) (value : State → Int) : Prop :=
  ∀ s,
    (inRange (s.sp - 1) = false → exec i s = .next (s.raise (.addressOutOfRange (s.sp - 1)))) ∧
    (inRange (s.sp - 1) = true → Fits (value s) →
      ∃ t, exec i s = .next t ∧ StoredAt s t (s.sp - 1) (value s) (s.sp - 1)) ∧
    ∀ cfg : Config, inRange (s.sp - 1) = true → cfg.fits (value s) = false →
      execIn cfg i s = .next (s.raise (.valueRange (value s)))

/-- A push of a memory source: the source's faults come first, then the write address's (R153, R154). -/
def PushesSource (i : Instr) (ea : State → Int) : Prop :=
  ∀ s,
    (inRange (ea s) = false → exec i s = .next (s.raise (.addressOutOfRange (ea s)))) ∧
    (HoldsRecord s (ea s) → exec i s = .next (s.raise (.notData (ea s)))) ∧
    (Readable s (ea s) → inRange (s.sp - 1) = false → exec i s = .next (s.raise (.addressOutOfRange (s.sp - 1)))) ∧
    (Readable s (ea s) → inRange (s.sp - 1) = true → Fits (contentAt s (ea s)) →
      ∃ t, exec i s = .next t ∧ StoredAt s t (s.sp - 1) (contentAt s (ea s)) (s.sp - 1)) ∧
    ∀ cfg : Config, Readable s (ea s) → inRange (s.sp - 1) = true → cfg.fits (contentAt s (ea s)) = false →
      execIn cfg i s = .next (s.raise (.valueRange (contentAt s (ea s))))

/-- A pop: the read at SP, then the destination and `SP + 1` (R155, R156); under a `VW` that cannot hold exactly one of the two
values it writes, `ValueRange` of that one (R183). -/
def PopsInto (i : Instr) (dest : State → Int → State) : Prop :=
  ∀ s,
    (inRange s.sp = false → exec i s = .next (s.raise (.addressOutOfRange s.sp))) ∧
    (HoldsRecord s s.sp → exec i s = .next (s.raise (.notData s.sp))) ∧
    (Readable s s.sp → Fits (contentAt s s.sp) → Fits (s.sp + 1) →
      exec i s = .next { dest s (contentAt s s.sp) with sp := s.sp + 1, pc := s.pc + 1 }) ∧
    ∀ cfg : Config, Readable s s.sp →
      (cfg.fits (contentAt s s.sp) = false → cfg.fits (s.sp + 1) = true →
        execIn cfg i s = .next (s.raise (.valueRange (contentAt s s.sp)))) ∧
      (cfg.fits (contentAt s s.sp) = true → cfg.fits (s.sp + 1) = false →
        execIn cfg i s = .next (s.raise (.valueRange (s.sp + 1))))

/-- A jump taken exactly where `taken` holds; an untaken one does not look at its target (R161 to R166). -/
def JumpsWhen (i : Int → Instr) (taken : State → Prop) : Prop :=
  ∀ target s,
    (taken s → inRange target = true → exec (i target) s = .next { s with pc := target.toNat }) ∧
    (taken s → inRange target = false → exec (i target) s = .next (s.raise (.addressOutOfRange target))) ∧
    (¬ taken s → exec (i target) s = .next { s with pc := s.pc + 1 })

/-! ### The assembler's input, token by token (R55 to R59) -/

/-- The label-stripped stream: what pass 1 emits, in order (R55). -/
def emitted (tokens : List Token) : List Token := tokens.filter (fun t => (labelName t).isNone)

/-- One of the mnemonics of R49, matched exactly (R59). -/
def IsMnemonic (t : Token) : Prop := ∃ r ∈ opcodeMap, r.mnemonic.toList = t

/-- A mnemonic of the format-N-only list (R59). -/
def TakesNoOperand (t : Token) : Prop := ∃ r ∈ opcodeMap, r.mnemonic.toList = t ∧ r.format = .implied

/-- A mnemonic that requires an operand (R59). -/
def TakesOperand (t : Token) : Prop := ∃ r ∈ opcodeMap, r.mnemonic.toList = t ∧ r.format ≠ .implied

/-- The outer form of an operand token: `0x…`, `#0x…` or `[…]` (R57). -/
def OperandShaped (t : Token) : Prop :=
  (∃ ds, t = '0' :: 'x' :: ds) ∨ (∃ ds, t = '#' :: '0' :: 'x' :: ds) ∨ ∃ inner, t = '[' :: (inner ++ [']'])

/-- One to four hex digits and their value (R57). -/
def HexLiteral (ds : List Char) (v : Nat) : Prop := 1 ≤ ds.length ∧ ds.length ≤ 4 ∧ hexDigits ds 0 = some v

/-- Bracketed text that is neither an indexed form nor a hex literal, so a label reference (R56 step 3). -/
def NamesLabel (name : List Char) : Prop :=
  ¬ ['0', 'x'] <+: name ∧ ¬ ['X', '+'] <+: name ∧ ¬ ['x', '+'] <+: name

/-- The index a name stands for: of its last definition, the number of tokens emitted before it (R55). -/
def LabelIndex (tokens : List Token) (name : List Char) (v : Nat) : Prop :=
  ∃ before t after, tokens = before ++ t :: after ∧ labelName t = some name ∧ (∀ u ∈ after, labelName u ≠ some name) ∧
    v = (emitted before).length

/-- What an operand token means: a format and a 16-bit value (R46, R48, R57). -/
inductive Denotes (tokens : List Token) : Token → Format → Nat → Prop where
  | immediate (ds v) : HexLiteral ds v → Denotes tokens ('0' :: 'x' :: ds) .immediate v
  | hashImmediate (ds v) : HexLiteral ds v → Denotes tokens ('#' :: '0' :: 'x' :: ds) .immediate v
  | direct (ds v) : HexLiteral ds v → Denotes tokens ('[' :: ('0' :: 'x' :: ds ++ [']'])) .direct v
  | indexed (c ds v) : c = 'X' ∨ c = 'x' → HexLiteral ds v →
      Denotes tokens ('[' :: (c :: '+' :: '0' :: 'x' :: ds ++ [']'])) .indexed v
  | label (name v) : NamesLabel name → LabelIndex tokens name v → v ≤ 0xFFFF →
      Denotes tokens ('[' :: (name ++ [']'])) .direct v

/-- An operand token whose hex literal is none: an immediate, direct or indexed form with bad digits (R58), or an indexed form
without a hex literal, for which R57 has no form and R58 no row: that it is this error is a DESIGN CHOICE (log entry 8). -/
def HasBadHex (o : Token) : Prop :=
  (∃ ds, (o = '0' :: 'x' :: ds ∨ o = '#' :: '0' :: 'x' :: ds ∨ o = '[' :: ('0' :: 'x' :: ds ++ [']']) ∨
      ∃ c, (c = 'X' ∨ c = 'x') ∧ o = '[' :: (c :: '+' :: '0' :: 'x' :: ds ++ [']'])) ∧ ∀ v, ¬ HexLiteral ds v) ∨
  ∃ c rest, (c = 'X' ∨ c = 'x') ∧ o = '[' :: (c :: '+' :: rest ++ [']']) ∧ ¬ ['0', 'x'] <+: rest

/-- The cell at address `i` of an image (R61): a mnemonic's record with its operand token's value, or the empty cell. -/
def PlacedAt (tokens : List Token) (image : List Cell) (i : Nat) (t : Token) : Prop :=
  (IsMnemonic t → ∃ r ∈ opcodeMap, r.mnemonic.toList = t ∧
    ((r.format = .implied ∧ image[i]? = some ⟨.record, r.op, 0⟩) ∨
      ∃ o v, (emitted tokens)[i + 1]? = some o ∧ Denotes tokens o r.format v ∧ image[i]? = some ⟨.record, r.op, v⟩)) ∧
  (¬ IsMnemonic t → image[i]? = some Cell.empty)

end Machine

end Sys2Proof
end

