-- ==== Sys2Proof/Certificates/Slice0/Obligations.lean ====
section
/-! DEFINITION. The statements for the provers, from the numbered rules of spec/. -/

open Sys2Proof Sys2Proof.Machine

/-- Cells written out from the spec decode to the instructions the spec names (R45, R49, R62) -/
def Obligations.SpecWordsDecode : Prop :=
  decode (Cell.ofWord 0xE0B) = .ok (.ldaImm 7) ∧ decode (Cell.ofWord 0x1002F) = .ok (.staIdx 0x80) ∧
  decode (Cell.ofWord 0x10057) = .ok (.subbIdx 0x80) ∧ decode (Cell.ofWord 0x81) = .ok .add ∧
  decode (Cell.ofWord 0xD9) = .ok .hlt ∧ decode (Cell.ofWord 0x1FE7D) = .ok (.pshDir 0xFF) ∧
  decode (Cell.ofWord 0xF9) = .ok .popb ∧ decode (Cell.ofWord (-512 + 0x10D)) = .ok (.jne (-1)) ∧
  decode (Cell.ofWord 0x141) = .ok .rfs ∧ decode (Cell.ofWord 0x201D) = .error (.unassigned 0x0E) ∧
  decode (Cell.ofWord 0x5400) = .error .dataCell

/-- Decode and encode agree on every instruction, as a number and as VW+9 bits (R45, R48, R49) -/
def Obligations.RecordWordRoundTrip : Prop :=
  (∀ i : Instr, decode (Cell.ofWord (encode i).word) = .ok i) ∧
  ∀ (n : Nat) (h : 17 ≤ n) (i : Instr), i.wellFormed (.bits n h) = true →
    decode (Cell.ofBits n ((encode i).toBits n)) = .ok i

/-- The word formula and the bit layout identify a cell uniquely and agree with each other (R45, R48) -/
def Obligations.CellNumberAndBitsAreFaithful : Prop :=
  (∀ c : Cell, Cell.ofWord c.word = c) ∧
  ∀ (n : Nat) (h : 17 ≤ n) (c : Cell), (ValueWidth.bits n h).fits c.val = true →
    Cell.ofBits n (c.toBits n) = c ∧ ((c.toBits n).toNat : Int) = c.word % 2 ^ (n + 9)

/-- A cell that decodes is a record with its instruction's OP and operand (R45, R49, R52) -/
def Obligations.DecodedInstructionDeterminesOpcode : Prop :=
  ∀ (c : Cell) (i : Instr), decode c = .ok i →
    c.kind = .record ∧ c.op = i.op ∧ (i.operand = none ∨ i.operand = some c.val)

/-- The opcode map is the table of R49, row by row; OP = family*4 + mode, and all other OPs are unassigned (R47, R49, R50) -/
def Obligations.OpcodeMapIsTheTable : Prop :=
  opcodeMap.map (fun r => (r.family, r.mnemonic, r.format, r.op)) =
    ([
      (1, "lda", .immediate, 0x05), (1, "lda", .direct, 0x06), (1, "lda", .indexed, 0x07), (2, "ldb", .immediate, 0x09),
      (2, "ldb", .direct, 0x0A), (2, "ldb", .indexed, 0x0B), (3, "ldx", .immediate, 0x0D), (4, "lds", .immediate, 0x11),
      (5, "sta", .direct, 0x16), (5, "sta", .indexed, 0x17), (6, "stb", .direct, 0x1A), (6, "stb", .indexed, 0x1B),
      (7, "adda", .immediate, 0x1D), (7, "adda", .direct, 0x1E), (7, "adda", .indexed, 0x1F), (8, "addb", .immediate, 0x21)] ++
    [
      (8, "addb", .direct, 0x22), (8, "addb", .indexed, 0x23), (9, "suba", .immediate, 0x25), (9, "suba", .direct, 0x26),
      (9, "suba", .indexed, 0x27), (10, "subb", .immediate, 0x29), (10, "subb", .direct, 0x2A), (10, "subb", .indexed, 0x2B),
      (11, "anda", .immediate, 0x2D), (11, "anda", .direct, 0x2E), (11, "anda", .indexed, 0x2F), (12, "andb", .immediate, 0x31),
      (12, "andb", .direct, 0x32), (12, "andb", .indexed, 0x33), (13, "ora", .immediate, 0x35), (13, "ora", .direct, 0x36)] ++
    [
      (13, "ora", .indexed, 0x37), (14, "orb", .immediate, 0x39), (14, "orb", .direct, 0x3A), (14, "orb", .indexed, 0x3B),
      (15, "psh", .immediate, 0x3D), (15, "psh", .direct, 0x3E), (15, "psh", .indexed, 0x3F), (16, "add", .implied, 0x40),
      (17, "sub", .implied, 0x44), (18, "inca", .implied, 0x48), (19, "incb", .implied, 0x4C), (20, "deca", .implied, 0x50),
      (21, "decb", .implied, 0x54), (22, "inva", .implied, 0x58), (23, "invb", .implied, 0x5C), (24, "incx", .implied, 0x60)] ++
    [
      (25, "decx", .implied, 0x64), (26, "cmp", .implied, 0x68), (27, "hlt", .implied, 0x6C), (28, "psha", .implied, 0x70),
      (29, "pshb", .implied, 0x74), (30, "popa", .implied, 0x78), (31, "popb", .implied, 0x7C), (32, "jmp", .direct, 0x82),
      (33, "jne", .direct, 0x86), (34, "jeq", .direct, 0x8A), (35, "jgt", .direct, 0x8E), (36, "jlt", .direct, 0x92),
      (37, "jge", .direct, 0x96), (38, "jle", .direct, 0x9A), (39, "jsr", .direct, 0x9E), (40, "rfs", .implied, 0xA0)] : List (Nat × String × Format × BitVec 8)) ∧
  opcodeMap.length = 64 ∧ (opcodeMap.map (·.op)).Nodup ∧
  (∀ r ∈ opcodeMap, 1 ≤ r.family ∧ r.family ≤ 40 ∧ r.op.toNat = r.family * 4 + r.format.mode) ∧
  (∀ r ∈ opcodeMap, Decodes r.op r.make) ∧
  (∀ (op : BitVec 8) (v : Int), (∀ r ∈ opcodeMap, r.op ≠ op) → decode ⟨.record, op, v⟩ = .error (.unassigned op)) ∧
  ((List.range 256).filter (fun k => opcodeMap.all (fun r => r.op != BitVec.ofNat 8 k))).length = 192

/-- A format-N record ignores its VAL, and the encoder writes 0 there (R52) -/
def Obligations.FormatNIgnoresVal : Prop :=
  (∀ r ∈ opcodeMap, r.format = .implied → ∀ v w : Int, decode ⟨.record, r.op, v⟩ = decode ⟨.record, r.op, w⟩) ∧
  ∀ i : Instr, i.operand = none → (encode i).val = 0

/-- A data cell or an unassigned opcode executes as PC <- PC + 1 and nothing else (R72) -/
def Obligations.DataAndUnassignedCellsAreNoOps : Prop :=
  ∀ s : State, s.runState = .running →
    ((fetch s).kind = .data → step s = .next { s with pc := s.pc + 1 }) ∧
    ((fetch s).kind = .record → (∀ r ∈ opcodeMap, r.op ≠ (fetch s).op) → step s = .next { s with pc := s.pc + 1 })

/-- add and sub write the exact sum and difference into B and nothing else but PC (R80, R81) -/
def Obligations.AddAndSubWriteB : Prop :=
  Decodes 0x40 (fun _ => .add) ∧
  WritesValue .add (fun s => s.a + s.b) (fun s v => { s with b := v }) ∧
  Decodes 0x44 (fun _ => .sub) ∧
  WritesValue .sub (fun s => s.a - s.b) (fun s v => { s with b := v })

/-- inca, incb, deca, decb, incx, decx change their register by exactly one (R82, R83, R84, R85, R88, R89) -/
def Obligations.IncrementsAndDecrementsAreExact : Prop :=
  Decodes 0x48 (fun _ => .inca) ∧
  WritesValue .inca (fun s => s.a + 1) (fun s v => { s with a := v }) ∧
  Decodes 0x4C (fun _ => .incb) ∧
  WritesValue .incb (fun s => s.b + 1) (fun s v => { s with b := v }) ∧
  Decodes 0x50 (fun _ => .deca) ∧
  WritesValue .deca (fun s => s.a - 1) (fun s v => { s with a := v }) ∧
  Decodes 0x54 (fun _ => .decb) ∧
  WritesValue .decb (fun s => s.b - 1) (fun s v => { s with b := v }) ∧
  Decodes 0x60 (fun _ => .incx) ∧
  WritesValue .incx (fun s => s.x + 1) (fun s v => { s with x := v }) ∧
  Decodes 0x64 (fun _ => .decx) ∧
  WritesValue .decx (fun s => s.x - 1) (fun s v => { s with x := v })

/-- inva and invb complement every bit of the unmasked value and never fault (R86, R87) -/
def Obligations.InvertFlipsEveryBit : Prop :=
  Decodes 0x58 (fun _ => .inva) ∧
  (∀ s : State, Fits s.a → exec .inva s = .next { s with a := -s.a - 1, pc := s.pc + 1 }) ∧
  Decodes 0x5C (fun _ => .invb) ∧
  (∀ s : State, Fits s.b → exec .invb s = .next { s with b := -s.b - 1, pc := s.pc + 1 }) ∧
  ∀ (v : Int) (k : Nat), valueBit (-v - 1) k = !valueBit v k

/-- cmp sets one flag by the sign of A - B, clears none, and changes nothing else but PC (R90) -/
def Obligations.CompareSetsStickyFlags : Prop :=
  Decodes 0x68 (fun _ => .cmp) ∧
  ∀ s : State, ∃ t, exec .cmp s = .next t ∧
    (t.z = true ↔ s.z = true ∨ s.a = s.b) ∧ (t.g = true ↔ s.g = true ∨ s.b < s.a) ∧
    (t.l = true ↔ s.l = true ∨ s.a < s.b) ∧ t = { s with z := t.z, g := t.g, l := t.l, pc := s.pc + 1 }

/-- hlt sets H and advances PC; after it no step is taken, and asked for one the model answers the name halted, also where PC + 1
is MEM_SIZE: the name is the model's choice, log entry 4, DEDUCED (R71, R91) -/
def Obligations.HaltSetsHAndStops : Prop :=
  Decodes 0x6C (fun _ => .hlt) ∧
  ∀ s : State, exec .hlt s = .next { s with h := true, pc := s.pc + 1 } ∧
    (s.fc = .none → step { s with h := true, pc := s.pc + 1 } = .fault .halted)

/-- lda, ldb, ldx, lds immediate load the whole literal, unmasked (R100, R103, R106, R107) -/
def Obligations.LoadImmediateLoadsTheLiteral : Prop :=
  Decodes 0x05 .ldaImm ∧
  (∀ v : Int, WritesValue (.ldaImm v) (fun _ => v) (fun s v => { s with a := v })) ∧
  Decodes 0x09 .ldbImm ∧
  (∀ v : Int, WritesValue (.ldbImm v) (fun _ => v) (fun s v => { s with b := v })) ∧
  Decodes 0x0D .ldxImm ∧
  (∀ v : Int, WritesValue (.ldxImm v) (fun _ => v) (fun s v => { s with x := v })) ∧
  Decodes 0x11 .ldsImm ∧
  (∀ v : Int, WritesValue (.ldsImm v) (fun _ => v) (fun s v => { s with sp := v })) ∧
  ∀ v : Int, 0 ≤ v → v ≤ 0xFFFF → Fits v

/-- lda and ldb direct and indexed load the addressed cell, or raise the read's fault (R101, R102, R104, R105) -/
def Obligations.LoadsReadMemory : Prop :=
  Decodes 0x06 .ldaDir ∧
  (∀ n : Int, WritesFromSource (.ldaDir n) (fun _ => n) (fun _ v => v) (fun s v => { s with a := v })) ∧
  Decodes 0x07 .ldaIdx ∧
  (∀ n : Int, WritesFromSource (.ldaIdx n) (fun s => n + s.x) (fun _ v => v) (fun s v => { s with a := v })) ∧
  Decodes 0x0A .ldbDir ∧
  (∀ n : Int, WritesFromSource (.ldbDir n) (fun _ => n) (fun _ v => v) (fun s v => { s with b := v })) ∧
  Decodes 0x0B .ldbIdx ∧
  (∀ n : Int, WritesFromSource (.ldbIdx n) (fun s => n + s.x) (fun _ v => v) (fun s v => { s with b := v }))

/-- sta and stb make the addressed cell a data cell and change no other cell or register (R108, R109, R110, R111) -/
def Obligations.StoresWriteOneDataCell : Prop :=
  Decodes 0x16 .staDir ∧
  (∀ n : Int, Stores (.staDir n) (fun _ => n) (fun s => s.a)) ∧
  Decodes 0x17 .staIdx ∧
  (∀ n : Int, Stores (.staIdx n) (fun s => n + s.x) (fun s => s.a)) ∧
  Decodes 0x1A .stbDir ∧
  (∀ n : Int, Stores (.stbDir n) (fun _ => n) (fun s => s.b)) ∧
  Decodes 0x1B .stbIdx ∧
  (∀ n : Int, Stores (.stbIdx n) (fun s => n + s.x) (fun s => s.b))

/-- adda and addb add their operand exactly, in all three modes (R120, R121, R122, R123, R124, R125) -/
def Obligations.AddWithOperandIsExact : Prop :=
  Decodes 0x1D .addaImm ∧
  (∀ v : Int, WritesValue (.addaImm v) (fun s => s.a + v) (fun s v => { s with a := v })) ∧
  Decodes 0x21 .addbImm ∧
  (∀ v : Int, WritesValue (.addbImm v) (fun s => s.b + v) (fun s v => { s with b := v })) ∧
  Decodes 0x1E .addaDir ∧
  (∀ n : Int, WritesFromSource (.addaDir n) (fun _ => n) (fun s v => s.a + v) (fun s v => { s with a := v })) ∧
  Decodes 0x1F .addaIdx ∧
  (∀ n : Int, WritesFromSource (.addaIdx n) (fun s => n + s.x) (fun s v => s.a + v) (fun s v => { s with a := v })) ∧
  Decodes 0x22 .addbDir ∧
  (∀ n : Int, WritesFromSource (.addbDir n) (fun _ => n) (fun s v => s.b + v) (fun s v => { s with b := v })) ∧
  Decodes 0x23 .addbIdx ∧
  (∀ n : Int, WritesFromSource (.addbIdx n) (fun s => n + s.x) (fun s v => s.b + v) (fun s v => { s with b := v }))

/-- suba and subb direct and indexed subtract the addressed cell exactly (R127, R128, R130, R131) -/
def Obligations.SubtractFromMemoryIsExact : Prop :=
  Decodes 0x26 .subaDir ∧
  (∀ n : Int, WritesFromSource (.subaDir n) (fun _ => n) (fun s v => s.a - v) (fun s v => { s with a := v })) ∧
  Decodes 0x27 .subaIdx ∧
  (∀ n : Int, WritesFromSource (.subaIdx n) (fun s => n + s.x) (fun s v => s.a - v) (fun s v => { s with a := v })) ∧
  Decodes 0x2A .subbDir ∧
  (∀ n : Int, WritesFromSource (.subbDir n) (fun _ => n) (fun s v => s.b - v) (fun s v => { s with b := v })) ∧
  Decodes 0x2B .subbIdx ∧
  (∀ n : Int, WritesFromSource (.subbIdx n) (fun s => n + s.x) (fun s v => s.b - v) (fun s v => { s with b := v }))

/-- suba and subb immediate subtract from the accumulator that SUBI_ALIAS selects (R126, R129) -/
def Obligations.SubtractImmediateFollowsAlias : Prop :=
  Decodes 0x25 .subaImm ∧
  Decodes 0x29 .subbImm ∧
  (∀ (cfg : Config) (v : Int) (s : State),
    (cfg.subiAlias = .subaAsSubb →
      execIn cfg (.subaImm v) s = .next (if cfg.fits (s.b - v) = true then { s with b := s.b - v, pc := s.pc + 1 }
        else s.raise (.valueRange (s.b - v)))) ∧
    (cfg.subiAlias ≠ .subaAsSubb →
      execIn cfg (.subaImm v) s = .next (if cfg.fits (s.a - v) = true then { s with a := s.a - v, pc := s.pc + 1 }
        else s.raise (.valueRange (s.a - v)))) ∧
    (cfg.subiAlias = .subbAsSuba →
      execIn cfg (.subbImm v) s = .next (if cfg.fits (s.a - v) = true then { s with a := s.a - v, pc := s.pc + 1 }
        else s.raise (.valueRange (s.a - v)))) ∧
    (cfg.subiAlias ≠ .subbAsSuba →
      execIn cfg (.subbImm v) s = .next (if cfg.fits (s.b - v) = true then { s with b := s.b - v, pc := s.pc + 1 }
        else s.raise (.valueRange (s.b - v))))) ∧
  ∀ (v : Int) (s : State), Fits (s.a - v) → Fits (s.b - v) →
    exec (.subaImm v) s = .next (if Config.chip.subiAlias = .subaAsSubb then { s with b := s.b - v, pc := s.pc + 1 }
      else { s with a := s.a - v, pc := s.pc + 1 }) ∧
    exec (.subbImm v) s = .next (if Config.chip.subiAlias = .subbAsSuba then { s with a := s.a - v, pc := s.pc + 1 }
      else { s with b := s.b - v, pc := s.pc + 1 })

/-- anda and andb: every bit of the result is the AND of the operands' bits (R132, R133, R134, R135, R136, R137) -/
def Obligations.AndCombinesBitwise : Prop :=
  Decodes 0x2D .andaImm ∧
  CombinesLiteral .andaImm and (fun s => s.a) (fun s v => { s with a := v }) ∧
  Decodes 0x2E .andaDir ∧
  (∀ n : Int, CombinesSource (.andaDir n) (fun _ => n) and (fun s => s.a) (fun s v => { s with a := v })) ∧
  Decodes 0x2F .andaIdx ∧
  (∀ n : Int, CombinesSource (.andaIdx n) (fun s => n + s.x) and (fun s => s.a) (fun s v => { s with a := v })) ∧
  Decodes 0x31 .andbImm ∧
  CombinesLiteral .andbImm and (fun s => s.b) (fun s v => { s with b := v }) ∧
  Decodes 0x32 .andbDir ∧
  (∀ n : Int, CombinesSource (.andbDir n) (fun _ => n) and (fun s => s.b) (fun s v => { s with b := v })) ∧
  Decodes 0x33 .andbIdx ∧
  (∀ n : Int, CombinesSource (.andbIdx n) (fun s => n + s.x) and (fun s => s.b) (fun s v => { s with b := v }))

/-- ora and orb: every bit of the result is the OR of the operands' bits (R138, R139, R140, R141, R142, R143) -/
def Obligations.OrCombinesBitwise : Prop :=
  Decodes 0x35 .oraImm ∧
  CombinesLiteral .oraImm or (fun s => s.a) (fun s v => { s with a := v }) ∧
  Decodes 0x36 .oraDir ∧
  (∀ n : Int, CombinesSource (.oraDir n) (fun _ => n) or (fun s => s.a) (fun s v => { s with a := v })) ∧
  Decodes 0x37 .oraIdx ∧
  (∀ n : Int, CombinesSource (.oraIdx n) (fun s => n + s.x) or (fun s => s.a) (fun s v => { s with a := v })) ∧
  Decodes 0x39 .orbImm ∧
  CombinesLiteral .orbImm or (fun s => s.b) (fun s v => { s with b := v }) ∧
  Decodes 0x3A .orbDir ∧
  (∀ n : Int, CombinesSource (.orbDir n) (fun _ => n) or (fun s => s.b) (fun s v => { s with b := v })) ∧
  Decodes 0x3B .orbIdx ∧
  (∀ n : Int, CombinesSource (.orbIdx n) (fun s => n + s.x) or (fun s => s.b) (fun s v => { s with b := v }))

/-- Pushes decrement SP and store at the new SP, with their faults in order (R150, R151, R152, R153, R154) -/
def Obligations.PushesStoreBelowSP : Prop :=
  Decodes 0x70 (fun _ => .psha) ∧
  PushesValue .psha (fun s => s.a) ∧
  Decodes 0x74 (fun _ => .pshb) ∧
  PushesValue .pshb (fun s => s.b) ∧
  Decodes 0x3D .pshImm ∧
  (∀ v : Int, PushesValue (.pshImm v) (fun _ => v)) ∧
  Decodes 0x3E .pshDir ∧
  (∀ n : Int, PushesSource (.pshDir n) (fun _ => n)) ∧
  Decodes 0x3F .pshIdx ∧
  ∀ n : Int, PushesSource (.pshIdx n) (fun s => n + s.x)

/-- popa and popb load the cell at SP and increment SP; memory is unchanged (R155, R156) -/
def Obligations.PopsLoadAndIncrementSP : Prop :=
  Decodes 0x78 (fun _ => .popa) ∧
  PopsInto .popa (fun s v => { s with a := v }) ∧
  Decodes 0x7C (fun _ => .popb) ∧
  PopsInto .popb (fun s v => { s with b := v })

/-- psha then popa leaves A and SP as they were (R150, R155) -/
def Obligations.PushThenPopRestores : Prop :=
  ∀ s : State, 1 ≤ s.sp → s.sp ≤ memSize → Fits s.a → Fits s.sp →
    ∃ t u, exec .psha s = .next t ∧ exec .popa t = .next u ∧
      (∀ b, b ≠ (s.sp - 1).toNat → Memory.read u.mem b = Memory.read s.mem b) ∧
      u = { s with mem := u.mem, pc := s.pc + 2 }

/-- Every instruction but lds keeps SP in 0 .. MEM_SIZE (R13, R107, R150, R155) -/
def Obligations.StackPointerStaysInRange : Prop :=
  ∀ (i : Instr) (s t : State), exec i s = .next t → 0 ≤ s.sp → s.sp ≤ memSize →
    (∀ v, i = .ldsImm v → 0 ≤ v ∧ v ≤ memSize) → 0 ≤ t.sp ∧ t.sp ≤ memSize

/-- jmp, jsr and rfs set PC as their rules say and change nothing else but RS (R160, R167, R168) -/
def Obligations.JumpCallAndReturn : Prop :=
  Decodes 0x82 .jmp ∧
  JumpsWhen .jmp (fun _ => True) ∧
  Decodes 0x9E .jsr ∧
  (∀ (target : Int) (s : State),
    (inRange target = true → exec (.jsr target) s = .next { s with rs := s.pc + 1, pc := target.toNat }) ∧
    (inRange target = false → exec (.jsr target) s = .next (s.raise (.addressOutOfRange target)))) ∧
  Decodes 0xA0 (fun _ => .rfs) ∧
  ∀ s : State, exec .rfs s = .next { s with pc := s.rs }

/-- The six conditional jumps are taken exactly on their flag tests; the target is checked only when taken (R161, R162, R163, R164, R165, R166) -/
def Obligations.ConditionalJumpsTestStickyFlags : Prop :=
  Decodes 0x86 .jne ∧
  JumpsWhen .jne (fun s => s.z = false) ∧
  Decodes 0x8A .jeq ∧
  JumpsWhen .jeq (fun s => s.z = true) ∧
  Decodes 0x8E .jgt ∧
  JumpsWhen .jgt (fun s => s.g = true) ∧
  Decodes 0x92 .jlt ∧
  JumpsWhen .jlt (fun s => s.l = true) ∧
  Decodes 0x96 .jge ∧
  JumpsWhen .jge (fun s => s.z = true ∨ s.g = true) ∧
  Decodes 0x9A .jle ∧
  JumpsWhen .jle (fun s => s.z = true ∨ s.l = true)

/-- A nested jsr overwrites the outer return address; every rfs then goes to the inner one (R167, R168, R208) -/
def Obligations.NestedCallLosesOuterReturn : Prop :=
  ∀ (t₁ t₂ : Int) (s : State), inRange t₁ = true → inRange t₂ = true →
    ∃ u v w w', exec (.jsr t₁) s = .next u ∧ exec (.jsr t₂) u = .next v ∧ exec .rfs v = .next w ∧ w.pc = t₁.toNat + 1 ∧
      exec .rfs w = .next w' ∧ w'.pc = t₁.toNat + 1

/-- A step of a Running state is exec of the instruction its fetched cell decodes to (R70, R77) -/
def Obligations.StepRunsDecodedInstruction : Prop :=
  ∀ (s : State) (i : Instr), s.runState = .running → decode (Memory.read s.mem s.pc) = .ok i → step s = exec i s

/-- The instruction that withFetchWord places is what the next step runs, and placing any word changes no other cell and no
register. withFetchWord is the model's device for the host's load between reset and start, taken here in every state: log entry
6, DEDUCED (R70, R192, R201, R202) -/
def Obligations.PlacedInstructionRunsNext : Prop :=
  (∀ (s : State) (nbits w : Nat) (i : Instr), s.runState = .running → decodeTableWord nbits w = some i →
    step (s.withFetchWord nbits w) = exec i (s.withFetchWord nbits w)) ∧
  (∀ (s : State) (nbits w : Nat),
    (∀ b, b ≠ s.pc → Memory.read (s.withFetchWord nbits w).mem b = Memory.read s.mem b) ∧
    s.withFetchWord nbits w = { s with mem := (s.withFetchWord nbits w).mem }) ∧
  State.reset.runState = .running ∧ fetch State.reset = Memory.read State.reset.mem 0

/-- No step exists in a Faulted or Halted state; every other state is Running. The names a stopped state answers, and that H = 1
goes before the end of memory, are the model's choice: log entry 4, DEDUCED (R19, R71) -/
def Obligations.StopsExactlyWhenNotRunning : Prop :=
  ∀ s : State,
    (s.fc ≠ .none → s.runState = .faulted ∧ step s = .fault .faulted) ∧
    (s.fc = .none → s.h = true → s.runState = .halted ∧ step s = .fault .halted) ∧
    (s.fc = .none → s.h = false → memSize ≤ s.pc → s.runState = .halted ∧ step s = .fault .endOfMemory) ∧
    (s.fc = .none → s.h = false → s.pc < memSize → s.runState = .running ∧ ∃ t, step s = .next t)

/-- The step answers a next state exactly in the Running states, for every content of memory (R70) -/
def Obligations.RunningStatesHaveOneSuccessor : Prop :=
  (∀ s : State, s.runState = .running ↔ ∃ t, step s = .next t) ∧ ∀ (i : Instr) (s : State), ∃ t, exec i s = .next t

/-- Reset: every register and flag 0, every cell empty, Running at address 0 (R22, R27) -/
def Obligations.ResetStateIsAllZero : Prop :=
  State.reset.a = 0 ∧ State.reset.b = 0 ∧ State.reset.x = 0 ∧ State.reset.sp = 0 ∧ State.reset.pc = 0 ∧
  State.reset.rs = 0 ∧ State.reset.z = false ∧ State.reset.g = false ∧ State.reset.l = false ∧ State.reset.h = false ∧
  State.reset.fc.toBits = 0 ∧ State.reset.fa = 0 ∧ (∀ a, Memory.read State.reset.mem a = ⟨.data, 0, 0⟩) ∧
  State.reset.runState = .running

/-- The reset state meets both invariants (R22, R26, R183) -/
def Obligations.ResetMeetsInvariants : Prop :=
  State.reset.Inv ∧ ∀ cfg : Config, State.reset.Representable cfg

/-- Every step keeps PC and RS in range, memory canonical and OP = 0 in data cells (R14, R17, R26) -/
def Obligations.StepKeepsInvariant : Prop :=
  ∀ s t : State, s.Inv → step s = .next t → t.Inv

/-- Under every VW, a step never leaves a value that VW cannot hold (R183, R35) -/
def Obligations.StepKeepsValuesRepresentable : Prop :=
  ∀ (cfg : Config) (s t : State), s.Representable cfg → stepIn cfg s = .next t → t.Representable cfg

/-- A finite VW gives the reference's result or raises ValueRange, never another value (R4, R183, R185) -/
def Obligations.FiniteWidthAgreesOrStops : Prop :=
  ∀ (cfg : Config) (i : Instr) (s : State),
    execIn cfg i s = execIn ⟨.unbounded, cfg.subiAlias⟩ i s ∨
    ∃ v, cfg.fits v = false ∧ execIn cfg i s = .next (s.raise (.valueRange v))

/-- The machine with its parameters as an argument is the machine at its own parameters (R4, R77) -/
def Obligations.ConfiguredMachineIsTheMachine : Prop :=
  (∀ (i : Instr) (s : State), execIn Config.chip i s = exec i s) ∧ (∀ s : State, stepIn Config.chip s = step s) ∧
  ∀ (w : ValueWidth) (al bl : SubiAlias) (i : Instr) (s : State), (∀ v, i ≠ .subaImm v) → (∀ v, i ≠ .subbImm v) →
    execIn ⟨w, al⟩ i s = execIn ⟨w, bl⟩ i s

/-- Every instruction that reads memory raises the read's fault before anything else (R34, R182, R185) -/
def Obligations.SourceReadFaultsComeFirst : Prop :=
  ∀ (i : Instr) (s : State) (a : Int), i.sourceAddress s = some a →
    (inRange a = false → exec i s = .next (s.raise (.addressOutOfRange a))) ∧
    (HoldsRecord s a → exec i s = .next (s.raise (.notData a)))

/-- A write address out of range is raised once the source read has passed, before any value check (R35, R181, R185) -/
def Obligations.WriteAddressFaultsComeSecond : Prop :=
  ∀ (cfg : Config) (i : Instr) (s : State) (a : Int), i.targetAddress s = some a →
    (∀ b, i.sourceAddress s = some b → Readable s b) → inRange a = false →
    execIn cfg i s = .next (s.raise (.addressOutOfRange a))

/-- A fault changes FC and FA and nothing else (R75) -/
def Obligations.FaultsArePrecise : Prop :=
  ∀ (i : Instr) (s t : State), s.fc = .none → exec i s = .next t → t.fc ≠ .none →
    ∃ r : Raise, t = s.raise r ∧ t = { s with fc := r.code, fa := r.info }

/-- Fault entry records the code and the information of the fault, and nothing else (R180, R186) -/
def Obligations.FaultCodesAreNumbered : Prop :=
  ∀ (s : State) (n : Int),
    ((s.raise (.addressOutOfRange n)).fc.toBits = 1 ∧ s.raise (.addressOutOfRange n) = { s with fc := .addressOutOfRange, fa := n }) ∧
    ((s.raise (.notData n)).fc.toBits = 2 ∧ s.raise (.notData n) = { s with fc := .notData, fa := n }) ∧
    ((s.raise (.valueRange n)).fc.toBits = 3 ∧ s.raise (.valueRange n) = { s with fc := .valueRange, fa := n }) ∧
    ∀ r : Raise, (s.raise r).runState = .faulted

/-- Along every run Z, G, L and H never go from 1 to 0 and a recorded fault never changes (R15, R16, R18, R209) -/
def Obligations.FlagsAndFaultStickAlongRuns : Prop :=
  ∀ (k : Nat) (s t : State), steps k s = .next t →
    (s.z = true → t.z = true) ∧ (s.g = true → t.g = true) ∧ (s.l = true → t.l = true) ∧ (s.h = true → t.h = true) ∧
    (s.fc ≠ .none → t.fc = s.fc ∧ t.fa = s.fa)

/-- A step creates and alters no instruction record (R21, R26, R42) -/
def Obligations.RecordsOnlyDisappear : Prop :=
  ∀ (s t : State) (a : Nat), step s = .next t → (Memory.read t.mem a).kind = .record →
    Memory.read t.mem a = Memory.read s.mem a

/-- Frame of memory: an instruction changes at most the one cell it stores to (R31, R44) -/
def Obligations.OnlyTheTargetCellIsWritten : Prop :=
  ∀ (i : Instr) (s t : State), exec i s = .next t →
    (i.targetAddress s = none → t.mem = s.mem) ∧
    (∀ a, i.targetAddress s = some a → ∀ b, b ≠ a.toNat → Memory.read t.mem b = Memory.read s.mem b) ∧
    (s.fc = .none → t.fc ≠ .none → t.mem = s.mem)

/-- Frame of registers: each is changed only by the instructions R10 lists as its writers (R10, R15, R16, R17) -/
def Obligations.EachRegisterHasItsWriters : Prop :=
  ∀ (i : Instr) (s t : State), exec i s = .next t →
    (i ≠ .cmp → t.z = s.z ∧ t.g = s.g ∧ t.l = s.l) ∧ (i ≠ .hlt → t.h = s.h) ∧
    ((∀ n, i ≠ .jsr n) → t.rs = s.rs) ∧ (i.writesX = false → t.x = s.x) ∧ (i.writesSP = false → t.sp = s.sp) ∧
    (i.writesA Config.chip.subiAlias = false → t.a = s.a) ∧ (i.writesB Config.chip.subiAlias = false → t.b = s.b)

/-- An indexed instruction behaves exactly like the direct one of its family at VAL + X (R73) -/
def Obligations.IndexedActsAsDirectAtEA : Prop :=
  ∀ (n : Int) (s : State),
    exec (.ldaIdx n) s = exec (.ldaDir (n + s.x)) s ∧
    exec (.ldbIdx n) s = exec (.ldbDir (n + s.x)) s ∧
    exec (.staIdx n) s = exec (.staDir (n + s.x)) s ∧
    exec (.stbIdx n) s = exec (.stbDir (n + s.x)) s ∧
    exec (.addaIdx n) s = exec (.addaDir (n + s.x)) s ∧
    exec (.addbIdx n) s = exec (.addbDir (n + s.x)) s ∧
    exec (.subaIdx n) s = exec (.subaDir (n + s.x)) s ∧
    exec (.subbIdx n) s = exec (.subbDir (n + s.x)) s ∧
    exec (.andaIdx n) s = exec (.andaDir (n + s.x)) s ∧
    exec (.andbIdx n) s = exec (.andbDir (n + s.x)) s ∧
    exec (.oraIdx n) s = exec (.oraDir (n + s.x)) s ∧
    exec (.orbIdx n) s = exec (.orbDir (n + s.x)) s ∧
    exec (.pshIdx n) s = exec (.pshDir (n + s.x)) s

/-- Every instruction but a control transfer that does not fault advances PC by exactly one (R14, R74) -/
def Obligations.PcAdvancesUnlessTransfer : Prop :=
  ∀ (i : Instr) (s t : State), i.transfers = false → s.fc = .none → exec i s = .next t →
    (t.fc = .none → t.pc = s.pc + 1) ∧ (t.fc ≠ .none → t.pc = s.pc)

/-- A store or push onto any cell makes a later fetch of it a no-op (R35, R42) -/
def Obligations.StoreIsSeenByTheNextFetch : Prop :=
  ∀ (i : Instr) (s : State) (a v : Int), i.targetAddress s = some a → i.storedValue s = some v → inRange a = true → Fits v →
    (∀ b, i.sourceAddress s = some b → Readable s b) →
    ∃ t, exec i s = .next t ∧ Memory.read t.mem a.toNat = ⟨.data, 0, v⟩ ∧
      ∀ u : State, u.mem = t.mem → u.pc = a.toNat → u.runState = .running → step u = .next { u with pc := u.pc + 1 }

/-- Over data cells the engine walks one cell a step to the end of memory and halts there with H = 0 (R72, R76, R210) -/
def Obligations.DataCellsWalkToEndOfMemory : Prop :=
  ∀ s : State, s.fc = .none → s.h = false → s.pc ≤ memSize →
    (∀ a, s.pc ≤ a → a < memSize → (Memory.read s.mem a).kind = .data) →
    (∀ k, s.pc + k ≤ memSize → steps k s = .next { s with pc := s.pc + k }) ∧
    ∀ k, memSize ≤ s.pc + k → run k s = .halted { s with pc := memSize }

/-- The host loads only before start, starts once, and reads back only a stopped engine. The phases, start without a load, reset
ending the started phase and read back in either phase are the model's choices: log entry 7, DESIGN CHOICE (R192, R200, R201) -/
def Obligations.HostMovesKeepTheirPhases : Prop :=
  ∀ h : Session,
    (h.phase = .started → hostStart h = none ∧ ∀ a c, hostLoad a c h = none) ∧
    (h.phase = .loading → engineMove h = none ∧ hostStart h = some ⟨.started, h.engine⟩ ∧
      ∀ a c, inRange a = true → Fits c.val → ∃ e, hostLoad a c h = some ⟨.loading, e⟩ ∧
        Memory.read e.mem a.toNat = c ∧ (∀ b, b ≠ a.toNat → Memory.read e.mem b = Memory.read h.engine.mem b) ∧
        e = { h.engine with mem := e.mem }) ∧
    (h.engine.runState = .running → hostReadBack h = none) ∧
    (h.engine.runState ≠ .running → hostReadBack h = some h.engine) ∧
    hostReset h = ⟨.loading, State.reset⟩

/-- Cell i of an assembled image is the record of the mnemonic at index i with its operand token's value, or empty. That no
operand is 65536, because a reference to the end label of a full text is refused, is the model's choice: log entry 8, DESIGN CHOICE (R48, R50, R55, R56, R57, R61) -/
def Obligations.AssembledImageHasRuleR61Layout : Prop :=
  ∀ (tokens : List Token) (image : List Cell), assembleTokens tokens = .ok image →
    image.length = (emitted tokens).length ∧ image.length ≤ memSize ∧
    (∀ c ∈ image, c = Cell.empty ∨ ∃ i, decode c = .ok i ∧ c = encode i ∧ i.assembled = true) ∧
    ∀ i t, (emitted tokens)[i]? = some t →
      PlacedAt tokens image i t ∧
      (OperandShaped t → ∃ j m, i = j + 1 ∧ (emitted tokens)[j]? = some m ∧ TakesOperand m)

/-- The document's scenario assembles to the six cells the spec gives (R45, R49, R56, R61, R62) -/
def Obligations.WorkedExampleAssembles : Prop :=
  assemble "ldb #0x03\nlda #0x07\nadd\nhlt".toList =
    .ok [⟨.record, 0x09, 3⟩, Cell.empty, ⟨.record, 0x05, 7⟩, Cell.empty, ⟨.record, 0x40, 0⟩, ⟨.record, 0x6C, 0⟩] ∧
  (assemble "ldb #0x03\nlda #0x07\nadd\nhlt".toList).map (List.map Cell.word) =
    .ok [0x613, 0x000, 0xE0B, 0x000, 0x081, 0x0D9]

/-- A pop of a value that VW cannot hold raises ValueRange of it, even where SP + 1 does not fit either: which of the two is
reported is the model's choice, log entry 9, DEDUCED (R155, R156, R183, R185) -/
def Obligations.PopChecksPoppedValueBeforeSP : Prop :=
  ∀ (cfg : Config) (s : State), Readable s s.sp → cfg.fits (contentAt s s.sp) = false →
    execIn cfg .popa s = .next (s.raise (.valueRange (contentAt s s.sp))) ∧
    execIn cfg .popb s = .next (s.raise (.valueRange (contentAt s s.sp)))

/-- Each error of the assembler has its cause in the stream, and R58 gives the cause but for two, which are the model's choice (log
entry 8, DESIGN CHOICE): an index form without a hex literal, such as `[X+e]`, is a `badHex` (the second case of `HasBadHex`),
and the reference to a label of value 65536 is an error, `labelPastEnd` (R55, R57, R58, R59) -/
def Obligations.AssemblerRefusesOnlyForANamedCause : Prop :=
  ∀ (tokens : List Token) (e : AsmError), assembleTokens tokens = .error e →
    match e with
    | .unresolvedLabel name =>
      '[' :: (name ++ [']']) ∈ emitted tokens ∧ NamesLabel name ∧ ∀ t ∈ tokens, labelName t ≠ some name
    | .labelPastEnd name =>
      '[' :: (name ++ [']']) ∈ emitted tokens ∧ NamesLabel name ∧ LabelIndex tokens name memSize ∧
        (emitted tokens).length = memSize
    | .strayOperand => ∃ i o, (emitted tokens)[i]? = some o ∧ OperandShaped o ∧
        ∀ j t, i = j + 1 → (emitted tokens)[j]? = some t → ¬ IsMnemonic t
    | .operandOfImplied => ∃ i t o, (emitted tokens)[i]? = some t ∧ TakesNoOperand t ∧
        (emitted tokens)[i + 1]? = some o ∧ OperandShaped o
    | .modeLacking => ∃ i t o f v, (emitted tokens)[i]? = some t ∧ TakesOperand t ∧
        (emitted tokens)[i + 1]? = some o ∧ Denotes tokens o f v ∧ ∀ r ∈ opcodeMap, r.mnemonic.toList = t → r.format ≠ f
    | .missingOperand => ∃ i t, (emitted tokens)[i]? = some t ∧ TakesOperand t ∧
        ∀ o, (emitted tokens)[i + 1]? = some o → ¬ OperandShaped o
    | .badHex => ∃ o ∈ emitted tokens, HasBadHex o
    | .tooLong => memSize < (emitted tokens).length
end

