-- ==== Sys2Proof/Laws/Assembler.lean ====
section
/-! SUPPORT. The assembler's passes against the terms of the claims: pass 1 and the label index, the classes of tokens, the
values of operand tokens (spec/30_encoding.md R55 to R59). -/

namespace Sys2Proof.Machine

/-! ### Pass 1 -/

/-- Pass 1 emits the label-stripped stream (R55). -/
@[simp] theorem labelPass_emitted (ts : List Token) (i : Nat) (tb : SymbolTable) : (labelPass ts i tb).1 = emitted ts := by
  induction ts generalizing i tb with
  | nil => rfl
  | cons t r ih => cases h : labelName t <;> simp [labelPass, emitted, h, ih]

@[simp] theorem emitted_length_label {t : Token} {name : List Char} (h : labelName t = some name) (ts : List Token) :
    (emitted (t :: ts)).length = (emitted ts).length := by simp [emitted, h]

@[simp] theorem emitted_length_token {t : Token} (h : labelName t = none) (ts : List Token) :
    (emitted (t :: ts)).length = (emitted ts).length + 1 := by simp [emitted, h]

theorem lookupLabel_cons (n : List Char) (i : Nat) (tb : SymbolTable) (name : List Char) :
    lookupLabel ((n, i) :: tb) name = if n = name then some i else lookupLabel tb name := by
  by_cases h : n = name <;> simp [lookupLabel, h]

/-- A name found after pass 1 is the last definition in the stream, or an earlier entry (R55). -/
theorem lookupLabel_labelPass {ts : List Token} {i : Nat} {tb : SymbolTable} {name : List Char} {v : Nat}
    (h : lookupLabel (labelPass ts i tb).2 name = some v) :
    (∃ before t after, ts = before ++ t :: after ∧ labelName t = some name ∧ (∀ u ∈ after, labelName u ≠ some name) ∧
      v = i + (emitted before).length) ∨
    ((∀ u ∈ ts, labelName u ≠ some name) ∧ lookupLabel tb name = some v) := by
  induction ts generalizing i tb with
  | nil => exact .inr ⟨by simp, h⟩
  | cons t r ih =>
    cases hn : labelName t with
    | some n =>
      rw [labelPass, hn] at h
      rcases ih h with ⟨b, u, a, rfl, hu, ha, rfl⟩ | ⟨hr, hl⟩
      · exact .inl ⟨t :: b, u, a, rfl, hu, ha, by simp [hn]⟩
      · rw [lookupLabel_cons] at hl
        split at hl
        · next hne => exact .inl ⟨[], t, r, rfl, hne ▸ hn, hr, by cases hl; simp [emitted]⟩
        · next hne => exact .inr ⟨by simpa [hn, hne] using hr, hl⟩
    | none =>
      simp only [labelPass, hn] at h
      rcases ih h with ⟨b, u, a, rfl, hu, ha, rfl⟩ | ⟨hr, hl⟩
      · exact .inl ⟨t :: b, u, a, rfl, hu, ha, by simp [hn]; omega⟩
      · exact .inr ⟨by simpa [hn] using hr, hl⟩

/-- The symbol table holds the label index (R55). -/
theorem labelIndex_of_lookup {ts : List Token} {name : List Char} {v : Nat}
    (h : lookupLabel (labelPass ts 0 []).2 name = some v) : LabelIndex ts name v := by
  rcases lookupLabel_labelPass h with ⟨b, t, a, h₁, h₂, h₃, h₄⟩ | ⟨_, h⟩
  · exact ⟨b, t, a, h₁, h₂, h₃, by omega⟩
  · cases h

/-- A name missing after pass 1 is defined nowhere (R58). -/
theorem undefined_of_lookup {ts : List Token} {i : Nat} {tb : SymbolTable} {name : List Char}
    (h : lookupLabel (labelPass ts i tb).2 name = none) :
    (∀ u ∈ ts, labelName u ≠ some name) ∧ lookupLabel tb name = none := by
  induction ts generalizing i tb with
  | nil => exact ⟨by simp, h⟩
  | cons t r ih =>
    cases hn : labelName t with
    | some n =>
      rw [labelPass, hn] at h
      obtain ⟨hr, hl⟩ := ih h
      rw [lookupLabel_cons] at hl
      split at hl
      · cases hl
      · next hne => exact ⟨by simpa [hn, hne] using hr, hl⟩
    | none =>
      simp only [labelPass, hn] at h
      obtain ⟨hr, hl⟩ := ih h
      exact ⟨by simpa [hn] using hr, hl⟩

/-- A label index never passes the end of the stream (R55). -/
theorem LabelIndex.le_length {ts : List Token} {name : List Char} {v : Nat} (h : LabelIndex ts name v) :
    v ≤ (emitted ts).length := by
  obtain ⟨b, t, a, rfl, _, _, rfl⟩ := h
  simp [emitted]

/-! ### Hex literals -/

theorem hexDigit_lt {c : Char} {d : Nat} (h : hexDigit c = some d) : d < 16 := by
  have e : ∀ x y : Char, x ≤ y → x.toNat ≤ y.toNat := fun _ _ h => h
  unfold hexDigit at h
  split at h
  · next hc => cases h; have := e _ _ hc.2; have : '9'.toNat = 57 := rfl; have : '0'.toNat = 48 := rfl; omega
  split at h
  · next hc => cases h; have := e _ _ hc.2; have : 'f'.toNat = 102 := rfl; have : 'a'.toNat = 97 := rfl; omega
  split at h
  · next hc => cases h; have := e _ _ hc.2; have : 'F'.toNat = 70 := rfl; have : 'A'.toNat = 65 := rfl; omega
  · cases h

theorem hexDigits_lt {ds : List Char} {n v : Nat} (h : hexDigits ds n = some v) : v < (n + 1) * 16 ^ ds.length := by
  induction ds generalizing n with
  | nil => cases h; simp
  | cons c r ih =>
    rw [hexDigits] at h
    split at h
    · next d hd =>
      have := hexDigit_lt hd
      calc v < (n * 16 + d + 1) * 16 ^ r.length := ih h
        _ ≤ ((n + 1) * 16) * 16 ^ r.length := Nat.mul_le_mul_right _ (by omega)
        _ = _ := by rw [List.length_cons, pow_succ]; ring
    · cases h

/-- A hex literal is a 16-bit value (R57). -/
theorem HexLiteral.le {ds : List Char} {v : Nat} (h : HexLiteral ds v) : v ≤ 0xFFFF := by
  have := hexDigits_lt h.2.2
  have : 16 ^ ds.length ≤ 16 ^ 4 := Nat.pow_le_pow_right (by omega) h.2.1
  omega

/-- What the digits of a hex literal answer (R57, R58). -/
theorem hexValue_cases (ds : List Char) :
    (∃ v, hexValue ds = .ok v ∧ HexLiteral ds v) ∨ (hexValue ds = .error .badHex ∧ ∀ v, ¬ HexLiteral ds v) := by
  unfold hexValue HexLiteral
  split
  · next h => exact .inr ⟨rfl, fun v ⟨h₁, h₂, _⟩ => by simp at h; rcases h with rfl | h; exacts [by simp at h₁, by omega]⟩
  · next h =>
    have : 1 ≤ ds.length ∧ ds.length ≤ 4 := by
      simp at h
      exact ⟨List.length_pos_iff.2 h.1, h.2⟩
    split
    · next v hv => exact .inl ⟨v, rfl, this.1, this.2, hv⟩
    · next hv => exact .inr ⟨rfl, fun v h => by rw [hv] at h; cases h.2.2⟩

/-! ### Token classes -/

/-- What an operand token's reading says about the token: its value, its name, or why it has none (R57, R58). -/
def ReadsAs (t : Token) : Except AsmError OperandToken → Prop
  | .ok (.literal f v) => f ≠ .implied ∧ v ≤ 0xFFFF ∧ ∀ tokens, Denotes tokens t f v
  | .ok (.reference name) => t = '[' :: (name ++ [']']) ∧ NamesLabel name
  | .error e => e = .badHex ∧ HasBadHex t

theorem readsAs_literal {t : Token} {f : Format} (ds : List Char) (hf : f ≠ .implied)
    (hd : ∀ v tokens, HexLiteral ds v → Denotes tokens t f v) (hb : (∀ v, ¬ HexLiteral ds v) → HasBadHex t) :
    ReadsAs t ((hexValue ds).map (.literal f)) := by
  rcases hexValue_cases ds with ⟨v, h, hv⟩ | ⟨h, hv⟩ <;> rw [h]
  · exact ⟨hf, hv.le, fun tokens => hd v tokens hv⟩
  · exact ⟨rfl, hb hv⟩

/-- Bracketed text (R56 step 3). -/
theorem readsAs_bracketed (inner : List Char) : ReadsAs ('[' :: (inner ++ [']'])) (bracketed inner) := by
  unfold bracketed
  split
  · next ds =>
    exact readsAs_literal ds (by decide) (fun v _ h => .indexed 'X' ds v (.inl rfl) h)
      (fun h => .inl ⟨ds, .inr (.inr (.inr ⟨'X', .inl rfl, rfl⟩)), h⟩)
  · next ds =>
    exact readsAs_literal ds (by decide) (fun v _ h => .indexed 'x' ds v (.inr rfl) h)
      (fun h => .inl ⟨ds, .inr (.inr (.inr ⟨'x', .inr rfl, rfl⟩)), h⟩)
  · next rest h => exact ⟨rfl, .inr ⟨'X', rest, .inl rfl, rfl, fun ⟨ds, e⟩ => h ds (by rw [← e]; rfl)⟩⟩
  · next rest h => exact ⟨rfl, .inr ⟨'x', rest, .inr rfl, rfl, fun ⟨ds, e⟩ => h ds (by rw [← e]; rfl)⟩⟩
  · next ds => exact readsAs_literal ds (by decide) (fun v _ h => .direct ds v h) (fun h => .inl ⟨ds, .inr (.inr (.inl rfl)), h⟩)
  · next h₁ h₂ h₃ h₄ h₅ =>
    exact ⟨rfl, fun ⟨ds, e⟩ => h₅ ds e.symm, fun ⟨ds, e⟩ => h₃ ds e.symm, fun ⟨ds, e⟩ => h₄ ds e.symm⟩

/-- What the class of a token that is no mnemonic says about it (R56, R57). -/
theorem classifyOperand_spec (t : Token) :
    (∃ o, classifyOperand t = .operand o ∧ OperandShaped t ∧ ReadsAs t o) ∨ (classifyOperand t = .inert ∧ ¬ OperandShaped t) := by
  unfold classifyOperand
  split
  · next ds =>
    exact .inl ⟨_, rfl, .inl ⟨ds, rfl⟩, readsAs_literal ds (by decide) (fun v _ h => .immediate ds v h)
      (fun h => .inl ⟨ds, .inl rfl, h⟩)⟩
  · next ds =>
    exact .inl ⟨_, rfl, .inr (.inl ⟨ds, rfl⟩), readsAs_literal ds (by decide) (fun v _ h => .hashImmediate ds v h)
      (fun h => .inl ⟨ds, .inr (.inl rfl), h⟩)⟩
  · next rest =>
    split
    · next inner h =>
      obtain rfl : rest = inner.reverse ++ [']'] := by rw [← List.reverse_cons, ← h, List.reverse_reverse]
      exact .inl ⟨_, rfl, .inr (.inr ⟨_, rfl⟩), readsAs_bracketed _⟩
    · next h =>
      refine .inr ⟨rfl, ?_⟩
      rintro (⟨ds, e⟩ | ⟨ds, e⟩ | ⟨inner, e⟩)
      · cases e
      · cases e
      · injection e with _ e
        exact h inner.reverse (by rw [e]; simp)
  · next h₁ h₂ h₃ =>
    refine .inr ⟨rfl, ?_⟩
    rintro (⟨ds, e⟩ | ⟨ds, e⟩ | ⟨inner, e⟩)
    · exact h₁ ds e
    · exact h₂ ds e
    · exact h₃ _ e

/-- No mnemonic has the form of an operand. -/
theorem not_operandShaped_of_isMnemonic {t : Token} (h : IsMnemonic t) : ¬ OperandShaped t := by
  obtain ⟨r, hr, rfl⟩ := h
  have : ∀ r ∈ opcodeMap, r.mnemonic.toList.head? ≠ some '0' ∧ r.mnemonic.toList.head? ≠ some '#' ∧
      r.mnemonic.toList.head? ≠ some '[' := by decide
  obtain ⟨h₀, h₁, h₂⟩ := this r hr
  rintro (⟨ds, e⟩ | ⟨ds, e⟩ | ⟨inner, e⟩) <;> rw [e] at h₀ h₁ h₂ <;> simp at h₀ h₁ h₂

/-- What the class of a token says about it: the three classes in the spec's terms (R56, R57, R59). -/
theorem classify_cases (t : Token) :
    (classify t = .mnemonic ∧ IsMnemonic t ∧ ¬ OperandShaped t) ∨
    (∃ o, classify t = .operand o ∧ ¬ IsMnemonic t ∧ OperandShaped t ∧ ReadsAs t o) ∨
    (classify t = .inert ∧ ¬ IsMnemonic t ∧ ¬ OperandShaped t) := by
  unfold classify
  by_cases h : IsMnemonic t
  · obtain ⟨r, hr, e⟩ := h
    have hm : (mnemonicRows t).isEmpty = false := by
      rw [mnemonicRows, List.isEmpty_eq_false_iff_exists_mem]
      exact ⟨r, List.mem_filter.2 ⟨hr, by simpa using e⟩⟩
    rw [hm]
    exact .inl ⟨rfl, ⟨r, hr, e⟩, not_operandShaped_of_isMnemonic ⟨r, hr, e⟩⟩
  · have hm : (mnemonicRows t).isEmpty = true := by
      rw [mnemonicRows, List.isEmpty_iff, List.filter_eq_nil_iff]
      exact fun r hr e => h ⟨r, hr, by simpa using e⟩
    rw [hm]
    rcases classifyOperand_spec t with ⟨o, h₁, h₂, h₃⟩ | ⟨h₁, h₂⟩
    · exact .inr (.inl ⟨o, h₁, h, h₂, h₃⟩)
    · exact .inr (.inr ⟨h₁, h, h₂⟩)

theorem isOperand_iff (t : Token) : isOperand t = true ↔ OperandShaped t := by
  unfold isOperand
  rcases classify_cases t with ⟨h, _, hn⟩ | ⟨o, h, _, hs, _⟩ | ⟨h, _, hn⟩ <;> rw [h] <;> simp [*]

/-! ### Rows -/

/-- The row the assembler picks has the token's mnemonic and the format asked for (R59). -/
theorem rowOf_some {t : Token} {f : Format} {r : OpcodeRow} (h : rowOf t f = some r) :
    r ∈ opcodeMap ∧ r.mnemonic.toList = t ∧ r.format = f := by
  unfold rowOf mnemonicRows at h
  have hm := List.mem_filter.1 (List.mem_of_find?_eq_some h)
  exact ⟨hm.1, by simpa using hm.2, by simpa using List.find?_some h⟩

theorem rowOf_none {t : Token} {f : Format} (h : rowOf t f = none) :
    ∀ r ∈ opcodeMap, r.mnemonic.toList = t → r.format ≠ f := by
  intro r hr hm hf
  have := List.find?_eq_none.1 h r (List.mem_filter.2 ⟨hr, by simpa using hm⟩)
  simp [hf] at this

/-- A mnemonic without a format-N row takes an operand (R59). -/
theorem takesOperand_of_rowOf {t : Token} (hm : IsMnemonic t) (h : rowOf t .implied = none) : TakesOperand t := by
  obtain ⟨r, hr, e⟩ := hm
  exact ⟨r, hr, e, rowOf_none h r hr e⟩

end Sys2Proof.Machine
end

