-- ==== Sys2Proof/Laws/Bits.lean ====
section
/-! SUPPORT. The bitwise operations against the bits of an integer in infinite two's complement (spec/00_scope.md R5), and
that they keep a value within a finite `VW`. -/

namespace Sys2Proof.Machine

theorem valueBit_ofNat (m k : Nat) : valueBit (Int.ofNat m) k = m.testBit k := by
  have h : (Int.ofNat m) / 2 ^ k % 2 = ((m / 2 ^ k % 2 : Nat) : Int) := by simp
  rw [valueBit, h, Nat.testBit_eq_decide_div_mod_eq]
  rcases Nat.mod_two_eq_zero_or_one (m / 2 ^ k) with h' | h' <;> simp [h']

theorem valueBit_negSucc (m k : Nat) : valueBit (Int.negSucc m) k = !m.testBit k := by
  have hdiv : (Int.negSucc m) / 2 ^ k = Int.negSucc (m / 2 ^ k) := by
    have h2 : (0 : Int) < 2 ^ k := by positivity
    rw [Int.negSucc_ediv _ h2, Int.negSucc_eq]
    norm_cast
  rw [valueBit, hdiv, Nat.testBit_eq_decide_div_mod_eq, Int.negSucc_eq]
  generalize m / 2 ^ k = q
  rcases Nat.mod_two_eq_zero_or_one q with h' | h'
  · have hq : -((q : Int) + 1) % 2 = 1 := by omega
    rw [hq, h']; rfl
  · have hq : -((q : Int) + 1) % 2 = 0 := by omega
    rw [hq, h']; rfl

theorem bitNot_eq (v : Int) : bitNot v = -v - 1 := rfl

theorem bitNot_ofNat (m : Nat) : bitNot (Int.ofNat m) = Int.negSucc m := by
  rw [bitNot, Int.negSucc_eq]; simp; omega

theorem bitNot_negSucc (m : Nat) : bitNot (Int.negSucc m) = Int.ofNat m := by
  rw [bitNot, Int.negSucc_eq]; simp

@[simp] theorem bitNot_bitNot (v : Int) : bitNot (bitNot v) = v := by
  simp only [bitNot]; omega

/-- `NOT` flips every bit. -/
@[simp] theorem valueBit_bitNot (v : Int) (k : Nat) : valueBit (bitNot v) k = !valueBit v k := by
  cases v with
  | ofNat m => rw [bitNot_ofNat, valueBit_negSucc, valueBit_ofNat]
  | negSucc m => rw [bitNot_negSucc, valueBit_ofNat, valueBit_negSucc, Bool.not_not]

/-- Every bit of `AND` is the conjunction of the operands' bits. -/
@[simp] theorem valueBit_bitAnd (v w : Int) (k : Nat) : valueBit (bitAnd v w) k = (valueBit v k && valueBit w k) := by
  cases v with
  | ofNat m =>
    cases w with
    | ofNat n => simp only [bitAnd, valueBit_ofNat, Nat.testBit_and]
    | negSucc n =>
      simp only [bitAnd, valueBit_ofNat, valueBit_negSucc, Nat.testBit_xor, Nat.testBit_and]
      cases m.testBit k <;> cases n.testBit k <;> rfl
  | negSucc m =>
    cases w with
    | ofNat n =>
      simp only [bitAnd, valueBit_ofNat, valueBit_negSucc, Nat.testBit_xor, Nat.testBit_and]
      cases m.testBit k <;> cases n.testBit k <;> rfl
    | negSucc n =>
      simp only [bitAnd, valueBit_negSucc, Nat.testBit_or]
      cases m.testBit k <;> cases n.testBit k <;> rfl

/-- Every bit of `OR` is the disjunction of the operands' bits. -/
@[simp] theorem valueBit_bitOr (v w : Int) (k : Nat) : valueBit (bitOr v w) k = (valueBit v k || valueBit w k) := by
  simp only [bitOr, valueBit_bitNot, valueBit_bitAnd]
  cases valueBit v k <;> cases valueBit w k <;> rfl

/-! ### Representable operands give representable results -/

/-- What fitting `n` bits means, with `p = 2^(n-1)`. -/
theorem fits_bits_iff {n : Nat} (h : 17 ≤ n) (v : Int) :
    (ValueWidth.bits n h).fits v = true ↔ -(2 ^ (n - 1)) ≤ v ∧ v ≤ 2 ^ (n - 1) - 1 := by
  simp [ValueWidth.fits]

theorem ofNat_fits_iff {n : Nat} (h : 17 ≤ n) (m : Nat) :
    (ValueWidth.bits n h).fits (Int.ofNat m) = true ↔ m < 2 ^ (n - 1) := by
  rw [fits_bits_iff]
  have hp : ((2 ^ (n - 1) : Nat) : Int) = 2 ^ (n - 1) := by push_cast; rfl
  rw [← hp]
  constructor
  · intro hb; have := hb.2; simp only [Int.ofNat_eq_natCast] at this; omega
  · intro hb; simp only [Int.ofNat_eq_natCast]; omega

theorem negSucc_fits_iff {n : Nat} (h : 17 ≤ n) (m : Nat) :
    (ValueWidth.bits n h).fits (Int.negSucc m) = true ↔ m < 2 ^ (n - 1) := by
  rw [fits_bits_iff, Int.negSucc_eq]
  have hp : ((2 ^ (n - 1) : Nat) : Int) = 2 ^ (n - 1) := by push_cast; rfl
  rw [← hp]
  omega

/-- `NOT` of a representable value is representable (R86). -/
theorem fits_bitNot {cfg : Config} {v : Int} (h : cfg.fits v = true) : cfg.fits (bitNot v) = true := by
  obtain ⟨w, al⟩ := cfg
  cases w with
  | unbounded => rfl
  | bits n hn =>
    cases v with
    | ofNat m => rw [bitNot_ofNat]; exact (negSucc_fits_iff hn m).2 ((ofNat_fits_iff hn m).1 h)
    | negSucc m => rw [bitNot_negSucc]; exact (ofNat_fits_iff hn m).2 ((negSucc_fits_iff hn m).1 h)

/-- `AND` of representable values is representable (43_operand_arith_logic.md, common properties). -/
theorem fits_bitAnd {cfg : Config} {v w : Int} (hv : cfg.fits v = true) (hw : cfg.fits w = true) :
    cfg.fits (bitAnd v w) = true := by
  obtain ⟨vw, al⟩ := cfg
  cases vw with
  | unbounded => rfl
  | bits n hn =>
    simp only [Config.fits] at hv hw ⊢
    cases v with
    | ofNat m =>
      have hm := (ofNat_fits_iff hn m).1 hv
      cases w with
      | ofNat k => exact (ofNat_fits_iff hn _).2 (lt_of_le_of_lt Nat.and_le_left hm)
      | negSucc k => exact (ofNat_fits_iff hn _).2 (Nat.xor_lt_two_pow hm (lt_of_le_of_lt Nat.and_le_left hm))
    | negSucc m =>
      have hm := (negSucc_fits_iff hn m).1 hv
      cases w with
      | ofNat k =>
        have hk := (ofNat_fits_iff hn k).1 hw
        exact (ofNat_fits_iff hn _).2 (Nat.xor_lt_two_pow hk (lt_of_le_of_lt Nat.and_le_right hk))
      | negSucc k => exact (negSucc_fits_iff hn _).2 (Nat.or_lt_two_pow hm ((negSucc_fits_iff hn k).1 hw))

/-- `OR` of representable values is representable (43_operand_arith_logic.md, common properties). -/
theorem fits_bitOr {cfg : Config} {v w : Int} (hv : cfg.fits v = true) (hw : cfg.fits w = true) :
    cfg.fits (bitOr v w) = true :=
  fits_bitNot (fits_bitAnd (fits_bitNot hv) (fits_bitNot hw))

/-- Every width of at least 17 bits holds these values, in particular every address and assembled literal (R4, R57). -/
theorem fits_of_17 (cfg : Config) {v : Int} (h₁ : -65536 ≤ v) (h₂ : v ≤ 65535) : cfg.fits v = true := by
  obtain ⟨w, al⟩ := cfg
  cases w with
  | unbounded => rfl
  | bits n hn =>
    refine (fits_bits_iff hn v).2 ?_
    have hpow : (65536 : Int) ≤ 2 ^ (n - 1) := by
      calc (65536 : Int) = 2 ^ 16 := by norm_num
        _ ≤ 2 ^ (n - 1) := pow_le_pow_right₀ (by norm_num) (by omega)
    omega

end Sys2Proof.Machine
end

