-- ==== Sys2Proof/Laws/Decode.lean ====
section
/-! SUPPORT. The header's bits, and the decoder against the encoder on the abstract triple (spec/30_encoding.md R45, R49). -/

namespace Sys2Proof

/-- Bit 0 of the header is `K` (R45). -/
theorem Cell.header_bit_zero (c : Cell) : c.header.getLsbD 0 = (c.kind == .record) := by
  have h : c.header.getLsbD 0 = (BitVec.ofNat 1 c.kind.toNat).getLsbD 0 :=
    (BitVec.getLsbD_append (x := c.op) (y := BitVec.ofNat 1 c.kind.toNat) (i := 0)).trans (by simp)
  rw [h]
  cases c.kind <;> rfl

/-- Bits 8:1 of the header are `OP` (R45). -/
theorem Cell.header_bit_succ (c : Cell) (j : Nat) : c.header.getLsbD (1 + j) = c.op.getLsbD j :=
  (BitVec.getLsbD_append (x := c.op) (y := BitVec.ofNat 1 c.kind.toNat) (i := 1 + j)).trans (by simp)

/-- The decoder undoes the encoder on the triple. -/
theorem decode_encode (i : Instr) : decode (encode i) = .ok i := by cases i <;> rfl

/-- A data cell holds no instruction (R51). -/
theorem decode_of_data {c : Cell} (h : c.kind = .data) : decode c = .error .dataCell := by simp [decode, h]

/-- A decoded instruction is made by the row of the cell's OP. -/
theorem row_of_decode {c : Cell} {i : Instr} (h : decode c = .ok i) :
    c.kind = .record ∧ ∃ r ∈ opcodeMap, r.op = c.op ∧ i = r.make c.val := by
  unfold decode at h
  split at h
  · cases h
  · rename_i hk
    split at h
    · rename_i r hr
      cases h
      exact ⟨hk, r, List.mem_of_find?_eq_some hr, by simpa using List.find?_some hr, rfl⟩
    · cases h

end Sys2Proof
end

