-- ==== Sys2Proof/Laws/Memory.lean ====
section
/-! SUPPORT. The memory operations: read after write, and the canonical form is kept. -/

namespace Sys2Proof.Machine

theorem Memory.read_clear_same (m : Memory) (a : Nat) : Memory.read (Memory.clear m a) a = Cell.empty := by
  induction m with
  | nil => rfl
  | cons e rest ih =>
    obtain ⟨b, c⟩ := e
    by_cases h : b = a
    · simpa [Memory.clear, h] using ih
    · simpa [Memory.clear, h, Memory.read] using ih

theorem Memory.read_clear_other (m : Memory) {a b : Nat} (h : b ≠ a) :
    Memory.read (Memory.clear m a) b = Memory.read m b := by
  induction m with
  | nil => rfl
  | cons e rest ih =>
    obtain ⟨k, c⟩ := e
    by_cases hk : k = a
    · subst hk
      simpa [Memory.clear, Memory.read, Ne.symm h] using ih
    · by_cases hb : k = b
      · simp [Memory.clear, Memory.read, hb, h]
      · simpa [Memory.clear, Memory.read, hk, hb] using ih

theorem Memory.read_insert_same (m : Memory) (a : Nat) (c : Cell) (h : ∀ e ∈ m, e.1 ≠ a) :
    Memory.read (Memory.insert m a c) a = c := by
  induction m with
  | nil => simp [Memory.insert, Memory.read]
  | cons e rest ih =>
    obtain ⟨b, d⟩ := e
    have hb : b ≠ a := h (b, d) (by simp)
    by_cases hlt : a < b
    · simp [Memory.insert, Memory.read, hlt]
    · simpa [Memory.insert, Memory.read, hlt, hb] using ih (fun f hf => h f (by simp [hf]))

theorem Memory.read_insert_other (m : Memory) {a b : Nat} (c : Cell) (h : b ≠ a) :
    Memory.read (Memory.insert m a c) b = Memory.read m b := by
  induction m with
  | nil => simp [Memory.insert, Memory.read, Ne.symm h]
  | cons e rest ih =>
    obtain ⟨k, d⟩ := e
    by_cases hlt : a < k
    · simp [Memory.insert, Memory.read, hlt, Ne.symm h]
    · simp only [Memory.insert, hlt, if_false, Memory.read, ih]

theorem Memory.ne_of_mem_clear {m : Memory} {a : Nat} {e : Nat × Cell} (h : e ∈ Memory.clear m a) : e.1 ≠ a := by
  simp [Memory.clear] at h
  exact h.2

/-- Read after write at the same address. -/
@[simp] theorem Memory.read_write_same (m : Memory) (a : Nat) (c : Cell) : Memory.read (Memory.write m a c) a = c := by
  unfold Memory.write
  split
  · rename_i h; rw [Memory.read_clear_same, h]
  · exact Memory.read_insert_same _ _ _ (fun e he => Memory.ne_of_mem_clear he)

/-- A write leaves every other address alone. -/
theorem Memory.read_write_other (m : Memory) {a b : Nat} (c : Cell) (h : b ≠ a) :
    Memory.read (Memory.write m a c) b = Memory.read m b := by
  unfold Memory.write
  split
  · exact Memory.read_clear_other m h
  · rw [Memory.read_insert_other _ _ h, Memory.read_clear_other m h]

/-- Both laws as one equation. -/
theorem Memory.read_write (m : Memory) (a b : Nat) (c : Cell) :
    Memory.read (Memory.write m a c) b = if b = a then c else Memory.read m b := by
  split
  · rename_i h; rw [h, Memory.read_write_same]
  · rename_i h; exact Memory.read_write_other m c h

theorem Memory.mem_of_mem_insert {m : Memory} {a : Nat} {c : Cell} {e : Nat × Cell} (h : e ∈ Memory.insert m a c) :
    e = (a, c) ∨ e ∈ m := by
  induction m with
  | nil => simpa [Memory.insert] using h
  | cons f rest ih =>
    obtain ⟨b, d⟩ := f
    by_cases hlt : a < b
    · simpa [Memory.insert, hlt] using h
    · simp only [Memory.insert, hlt, if_false, List.mem_cons] at h ⊢
      rcases h with h | h
      · exact .inr (.inl h)
      · exact (ih h).imp id .inr

theorem Memory.wf_clear {m : Memory} (a : Nat) (h : Memory.wf m) : Memory.wf (Memory.clear m a) :=
  ⟨h.1.filter _, fun e he => h.2 e (List.mem_of_mem_filter he)⟩

theorem Memory.pairwise_insert {m : Memory} {a : Nat} (c : Cell) (h : m.Pairwise (fun e f => e.1 < f.1))
    (hne : ∀ e ∈ m, e.1 ≠ a) : (Memory.insert m a c).Pairwise (fun e f => e.1 < f.1) := by
  induction m with
  | nil => simp [Memory.insert]
  | cons f rest ih =>
    obtain ⟨b, d⟩ := f
    obtain ⟨hb, hrest⟩ := List.pairwise_cons.1 h
    have hba : b ≠ a := hne (b, d) (by simp)
    by_cases hlt : a < b
    · simp only [Memory.insert, hlt, if_true]
      refine List.pairwise_cons.2 ⟨fun e he => ?_, h⟩
      rcases List.mem_cons.1 he with rfl | he
      · exact hlt
      · exact lt_trans hlt (hb e he)
    · simp only [Memory.insert, hlt, if_false]
      refine List.pairwise_cons.2 ⟨fun e he => ?_, ih hrest (fun e he => hne e (by simp [he]))⟩
      rcases Memory.mem_of_mem_insert he with rfl | he
      · exact lt_of_le_of_ne (not_lt.1 hlt) hba
      · exact hb e he

/-- A write keeps the canonical form. -/
theorem Memory.wf_write {m : Memory} {a : Nat} (c : Cell) (h : Memory.wf m) (ha : a < memSize) :
    Memory.wf (Memory.write m a c) := by
  unfold Memory.write
  split
  · exact Memory.wf_clear a h
  · rename_i hc
    have hclear := Memory.wf_clear a h
    refine ⟨Memory.pairwise_insert c hclear.1 (fun e he => Memory.ne_of_mem_clear he), fun e he => ?_⟩
    rcases Memory.mem_of_mem_insert he with rfl | he
    · exact ⟨ha, hc⟩
    · exact hclear.2 e he

/-- The host's placing of a cell keeps the canonical form. -/
theorem Memory.wf_loadCell {s : State} (a : Nat) (c : Cell) (h : Memory.wf s.mem) : Memory.wf (loadCell s a c).mem := by
  unfold loadCell
  split
  · rename_i ha; exact Memory.wf_write c h ha
  · exact h

/-- The reset memory is canonical. -/
theorem Memory.wf_reset : Memory.wf State.reset.mem := by decide

end Sys2Proof.Machine
end

