-- ==== Sys2Proof/Laws/State.lean ====
section
/-! SUPPORT. One lemma per field per named update of the state, each true by rfl. -/

namespace Sys2Proof.Machine

@[simp] theorem State.advance_a (s : State) : s.advance.a = s.a := rfl
@[simp] theorem State.advance_b (s : State) : s.advance.b = s.b := rfl
@[simp] theorem State.advance_x (s : State) : s.advance.x = s.x := rfl
@[simp] theorem State.advance_sp (s : State) : s.advance.sp = s.sp := rfl
@[simp] theorem State.advance_pc (s : State) : s.advance.pc = s.pc + 1 := rfl
@[simp] theorem State.advance_rs (s : State) : s.advance.rs = s.rs := rfl
@[simp] theorem State.advance_z (s : State) : s.advance.z = s.z := rfl
@[simp] theorem State.advance_g (s : State) : s.advance.g = s.g := rfl
@[simp] theorem State.advance_l (s : State) : s.advance.l = s.l := rfl
@[simp] theorem State.advance_h (s : State) : s.advance.h = s.h := rfl
@[simp] theorem State.advance_fc (s : State) : s.advance.fc = s.fc := rfl
@[simp] theorem State.advance_fa (s : State) : s.advance.fa = s.fa := rfl
@[simp] theorem State.advance_mem (s : State) : s.advance.mem = s.mem := rfl

@[simp] theorem State.raise_a (s : State) (r : Raise) : (s.raise r).a = s.a := rfl
@[simp] theorem State.raise_b (s : State) (r : Raise) : (s.raise r).b = s.b := rfl
@[simp] theorem State.raise_x (s : State) (r : Raise) : (s.raise r).x = s.x := rfl
@[simp] theorem State.raise_sp (s : State) (r : Raise) : (s.raise r).sp = s.sp := rfl
@[simp] theorem State.raise_pc (s : State) (r : Raise) : (s.raise r).pc = s.pc := rfl
@[simp] theorem State.raise_rs (s : State) (r : Raise) : (s.raise r).rs = s.rs := rfl
@[simp] theorem State.raise_z (s : State) (r : Raise) : (s.raise r).z = s.z := rfl
@[simp] theorem State.raise_g (s : State) (r : Raise) : (s.raise r).g = s.g := rfl
@[simp] theorem State.raise_l (s : State) (r : Raise) : (s.raise r).l = s.l := rfl
@[simp] theorem State.raise_h (s : State) (r : Raise) : (s.raise r).h = s.h := rfl
@[simp] theorem State.raise_fc (s : State) (r : Raise) : (s.raise r).fc = r.code := rfl
@[simp] theorem State.raise_fa (s : State) (r : Raise) : (s.raise r).fa = r.info := rfl
@[simp] theorem State.raise_mem (s : State) (r : Raise) : (s.raise r).mem = s.mem := rfl

@[simp] theorem State.setReg_pc (s : State) (r : Reg) (v : Int) : (s.setReg r v).pc = s.pc := by cases r <;> rfl
@[simp] theorem State.setReg_rs (s : State) (r : Reg) (v : Int) : (s.setReg r v).rs = s.rs := by cases r <;> rfl
@[simp] theorem State.setReg_z (s : State) (r : Reg) (v : Int) : (s.setReg r v).z = s.z := by cases r <;> rfl
@[simp] theorem State.setReg_g (s : State) (r : Reg) (v : Int) : (s.setReg r v).g = s.g := by cases r <;> rfl
@[simp] theorem State.setReg_l (s : State) (r : Reg) (v : Int) : (s.setReg r v).l = s.l := by cases r <;> rfl
@[simp] theorem State.setReg_h (s : State) (r : Reg) (v : Int) : (s.setReg r v).h = s.h := by cases r <;> rfl
@[simp] theorem State.setReg_fc (s : State) (r : Reg) (v : Int) : (s.setReg r v).fc = s.fc := by cases r <;> rfl
@[simp] theorem State.setReg_fa (s : State) (r : Reg) (v : Int) : (s.setReg r v).fa = s.fa := by cases r <;> rfl
@[simp] theorem State.setReg_mem (s : State) (r : Reg) (v : Int) : (s.setReg r v).mem = s.mem := by cases r <;> rfl

@[simp] theorem State.setReg_a_a (s : State) (v : Int) : (s.setReg .a v).a = v := rfl
@[simp] theorem State.setReg_a_b (s : State) (v : Int) : (s.setReg .a v).b = s.b := rfl
@[simp] theorem State.setReg_a_x (s : State) (v : Int) : (s.setReg .a v).x = s.x := rfl
@[simp] theorem State.setReg_a_sp (s : State) (v : Int) : (s.setReg .a v).sp = s.sp := rfl
@[simp] theorem State.setReg_b_a (s : State) (v : Int) : (s.setReg .b v).a = s.a := rfl
@[simp] theorem State.setReg_b_b (s : State) (v : Int) : (s.setReg .b v).b = v := rfl
@[simp] theorem State.setReg_b_x (s : State) (v : Int) : (s.setReg .b v).x = s.x := rfl
@[simp] theorem State.setReg_b_sp (s : State) (v : Int) : (s.setReg .b v).sp = s.sp := rfl
@[simp] theorem State.setReg_x_a (s : State) (v : Int) : (s.setReg .x v).a = s.a := rfl
@[simp] theorem State.setReg_x_b (s : State) (v : Int) : (s.setReg .x v).b = s.b := rfl
@[simp] theorem State.setReg_x_x (s : State) (v : Int) : (s.setReg .x v).x = v := rfl
@[simp] theorem State.setReg_x_sp (s : State) (v : Int) : (s.setReg .x v).sp = s.sp := rfl
@[simp] theorem State.setReg_sp_a (s : State) (v : Int) : (s.setReg .sp v).a = s.a := rfl
@[simp] theorem State.setReg_sp_b (s : State) (v : Int) : (s.setReg .sp v).b = s.b := rfl
@[simp] theorem State.setReg_sp_x (s : State) (v : Int) : (s.setReg .sp v).x = s.x := rfl
@[simp] theorem State.setReg_sp_sp (s : State) (v : Int) : (s.setReg .sp v).sp = v := rfl

@[simp] theorem compareFlags_a (s : State) : (compareFlags s).a = s.a := rfl
@[simp] theorem compareFlags_b (s : State) : (compareFlags s).b = s.b := rfl
@[simp] theorem compareFlags_x (s : State) : (compareFlags s).x = s.x := rfl
@[simp] theorem compareFlags_sp (s : State) : (compareFlags s).sp = s.sp := rfl
@[simp] theorem compareFlags_pc (s : State) : (compareFlags s).pc = s.pc := rfl
@[simp] theorem compareFlags_rs (s : State) : (compareFlags s).rs = s.rs := rfl
@[simp] theorem compareFlags_h (s : State) : (compareFlags s).h = s.h := rfl
@[simp] theorem compareFlags_fc (s : State) : (compareFlags s).fc = s.fc := rfl
@[simp] theorem compareFlags_fa (s : State) : (compareFlags s).fa = s.fa := rfl
@[simp] theorem compareFlags_mem (s : State) : (compareFlags s).mem = s.mem := rfl

@[simp] theorem State.reg_a (s : State) : s.reg .a = s.a := rfl
@[simp] theorem State.reg_b (s : State) : s.reg .b = s.b := rfl
@[simp] theorem State.reg_x (s : State) : s.reg .x = s.x := rfl
@[simp] theorem State.reg_sp (s : State) : s.reg .sp = s.sp := rfl

/-- A register reads as what was last written to it. -/
theorem State.reg_setReg (s : State) (r : Reg) (v : Int) : (s.setReg r v).reg r = v := by cases r <;> rfl

/-- Writing one register leaves the others alone. -/
theorem State.reg_setReg_of_ne (s : State) {r q : Reg} (v : Int) (h : q ≠ r) : (s.setReg r v).reg q = s.reg q := by
  cases r <;> cases q <;> first | rfl | exact absurd rfl h

end Sys2Proof.Machine
end

