-- ==== Sys2Proof/Laws/Ops.lean ====
section
/-! SUPPORT. One spec lemma per shared operation: everything it can answer. -/

namespace Sys2Proof.Machine

theorem inRange_iff (a : Int) : inRange a = true ↔ 0 ≤ a ∧ a < 65536 := by
  rw [inRange, Bool.and_eq_true, decide_eq_true_iff, decide_eq_true_iff]
  rfl

theorem toNat_lt_of_inRange {a : Int} (h : inRange a = true) : a.toNat < memSize := by
  have := (inRange_iff a).1 h
  simp only [memSize]; omega

/-- `settle` answers the state its assignments give, or the recorded fault (R75). -/
@[simp] theorem settle_ok (s t : State) : settle s (.ok t) = .next t := rfl
@[simp] theorem settle_error (s : State) (r : Raise) : settle s (.error r) = .next (s.raise r) := rfl
@[simp] theorem finish_ok (s t : State) : finish s (.ok t) = .next t.advance := rfl
@[simp] theorem finish_error (s : State) (r : Raise) : finish s (.error r) = .next (s.raise r) := rfl

/-- Every instruction ends in a next state: the effect, or the fault recorded on the state before it (R75, R186). -/
theorem settle_cases {s t : State} {e : Except Raise State} (h : settle s e = .next t) :
    e = .ok t ∨ ∃ r, e = .error r ∧ t = s.raise r := by
  cases e with
  | ok u => exact .inl (by rw [settle_ok] at h; cases h; rfl)
  | error r => exact .inr ⟨r, rfl, by rw [settle_error] at h; cases h; rfl⟩

theorem finish_cases {s t : State} {e : Except Raise State} (h : finish s e = .next t) :
    (∃ u, e = .ok u ∧ t = u.advance) ∨ ∃ r, e = .error r ∧ t = s.raise r := by
  cases e with
  | ok u => exact .inl ⟨u, rfl, by rw [finish_ok] at h; cases h; rfl⟩
  | error r => exact .inr ⟨r, rfl, by rw [finish_error] at h; cases h; rfl⟩

theorem checkAddress_eq (a : Int) :
    checkAddress a = if inRange a = true then .ok () else .error (.addressOutOfRange a) := rfl

theorem checkValue_eq (cfg : Config) (v : Int) :
    checkValue cfg v = if cfg.fits v = true then .ok () else .error (.valueRange v) := rfl

/-- `MemRead` (R34). -/
theorem memRead_eq (s : State) (a : Int) :
    memRead s a =
      if inRange a = true then
        if (Memory.read s.mem a.toNat).kind = .record then .error (.notData a)
        else .ok (Memory.read s.mem a.toNat).val
      else .error (.addressOutOfRange a) := by
  unfold memRead
  rw [checkAddress_eq]
  split
  · cases h : (Memory.read s.mem a.toNat).kind <;> simp [bind, Except.bind]
  · rfl

/-- `MemWrite` (R35, R183). -/
theorem memWrite_eq (cfg : Config) (a v : Int) (s : State) :
    memWrite cfg a v s =
      if inRange a = true then
        if cfg.fits v = true then .ok { s with mem := Memory.write s.mem a.toNat (Cell.ofValue v) }
        else .error (.valueRange v)
      else .error (.addressOutOfRange a) := by
  unfold memWrite
  rw [checkAddress_eq, checkValue_eq]
  split
  · split <;> rfl
  · rfl

/-- A register write (R183). -/
theorem writeReg_eq (cfg : Config) (r : Reg) (v : Int) (s : State) :
    writeReg cfg r v s = if cfg.fits v = true then .ok (s.setReg r v) else .error (.valueRange v) := by
  unfold writeReg
  rw [checkValue_eq]
  split <;> rfl

@[simp] theorem updateReg_eq (cfg : Config) (r : Reg) (f : Int → Int) (s : State) :
    updateReg cfg r f s = writeReg cfg r (f (s.reg r)) s := rfl

@[simp] theorem loadReg_ok (cfg : Config) (r : Reg) (v : Int) (s : State) :
    loadReg cfg r (.ok v) s = writeReg cfg r v s := rfl
@[simp] theorem loadReg_error (cfg : Config) (r : Reg) (e : Raise) (s : State) :
    loadReg cfg r (.error e) s = .error e := rfl

@[simp] theorem accumulate_ok (cfg : Config) (r : Reg) (f : Int → Int → Int) (v : Int) (s : State) :
    accumulate cfg r f (.ok v) s = writeReg cfg r (f (s.reg r) v) s := rfl
@[simp] theorem accumulate_error (cfg : Config) (r : Reg) (f : Int → Int → Int) (e : Raise) (s : State) :
    accumulate cfg r f (.error e) s = .error e := rfl

@[simp] theorem immediate_eq (v : Int) : immediate v = .ok v := rfl
@[simp] theorem direct_eq (addr : Int) (s : State) : direct addr s = memRead s addr := rfl
@[simp] theorem indexed_eq (base : Int) (s : State) : indexed base s = memRead s (base + s.x) := rfl
@[simp] theorem eaDirect_eq (addr : Int) : eaDirect addr = addr := rfl
@[simp] theorem eaIndexed_eq (base : Int) (s : State) : eaIndexed base s = base + s.x := rfl

@[simp] theorem push_error (cfg : Config) (e : Raise) (s : State) : push cfg (.error e) s = .error e := rfl

/-- A push of a value (R150): the decrement itself never fails its value check, since a legal `SP - 1` fits every `VW`. -/
@[simp] theorem push_ok (cfg : Config) (v : Int) (s : State) :
    push cfg (.ok v) s =
      if inRange (s.sp - 1) = true then
        if cfg.fits v = true then
          .ok { s with sp := s.sp - 1, mem := Memory.write s.mem (s.sp - 1).toNat (Cell.ofValue v) }
        else .error (.valueRange v)
      else .error (.addressOutOfRange (s.sp - 1)) := by
  by_cases h : inRange (s.sp - 1) = true
  · have hr := (inRange_iff _).1 h
    have hf : cfg.fits (s.sp - 1) = true := fits_of_17 cfg (by omega) (by omega)
    simp only [push, checkAddress_eq, h, if_true, writeReg_eq, hf, memWrite_eq, bind, Except.bind, State.setReg]
  · simp [push, checkAddress_eq, h, bind, Except.bind]

/-- A pop (R155, R156). -/
theorem pop_eq (cfg : Config) (r : Reg) (s : State) :
    pop cfg r s =
      match memRead s s.sp with
      | .error e => .error e
      | .ok v =>
        if cfg.fits v = true then
          if cfg.fits ((s.setReg r v).sp + 1) = true then .ok ((s.setReg r v).setReg .sp ((s.setReg r v).sp + 1))
          else .error (.valueRange ((s.setReg r v).sp + 1))
        else .error (.valueRange v) := by
  unfold pop
  cases memRead s s.sp with
  | error e => rfl
  | ok v =>
    simp only [bind, Except.bind, writeReg_eq]
    by_cases h : cfg.fits v = true <;> simp [h]

theorem jumpTo_eq (target : Int) (s : State) :
    jumpTo target s =
      if inRange target = true then .ok { s with pc := target.toNat } else .error (.addressOutOfRange target) := by
  unfold jumpTo
  rw [checkAddress_eq]
  split <;> rfl

@[simp] theorem branch_true (target : Int) (s : State) : branch true target s = jumpTo target s := rfl
@[simp] theorem branch_false (target : Int) (s : State) : branch false target s = .ok s.advance := rfl

theorem call_eq (target : Int) (s : State) :
    call target s =
      if inRange target = true then .ok { s with rs := s.pc + 1, pc := target.toNat }
      else .error (.addressOutOfRange target) := by
  unfold call
  rw [checkAddress_eq]
  split <;> rfl

end Sys2Proof.Machine
end

