-- ==== Sys2Proof/Laws/PerInstr.lean ====
section
/-! SUPPORT. The shape of every instruction's record, one lemma per constructor (spec/30_encoding.md R45 to R49). -/

namespace Sys2Proof.Laws.RecordShape

/-- The record of an instruction has `K = 1`, its operand (or 0) in `VAL`, and an `OP` that some row of the opcode map gives
to exactly this instruction, with `OP[1:0]` the mode of a format that has an operand exactly when the instruction has. -/
def Statement (i : Instr) : Prop :=
  (encode i).kind = .record ∧ (encode i).val = i.operand.getD 0 ∧
  ∃ r ∈ opcodeMap, r.op = (encode i).op ∧ r.make ((encode i).val) = i ∧
    r.op.toNat % 4 = r.format.mode ∧ (r.format = .implied ↔ i.operand = none)

theorem ldaImm (v : Int) : Statement (.ldaImm v) :=
  ⟨rfl, rfl, ⟨1, "lda", .immediate, 0x05, .ldaImm⟩, by simp [opcodeMap, loadStoreRows, operandArithRows, registerRows,
    stackControlRows], rfl, rfl, rfl, by simp [Instr.operand]⟩

theorem ldaDir (addr : Int) : Statement (.ldaDir addr) :=
  ⟨rfl, rfl, ⟨1, "lda", .direct, 0x06, .ldaDir⟩, by simp [opcodeMap, loadStoreRows, operandArithRows, registerRows,
    stackControlRows], rfl, rfl, rfl, by simp [Instr.operand]⟩

theorem ldaIdx (base : Int) : Statement (.ldaIdx base) :=
  ⟨rfl, rfl, ⟨1, "lda", .indexed, 0x07, .ldaIdx⟩, by simp [opcodeMap, loadStoreRows, operandArithRows, registerRows,
    stackControlRows], rfl, rfl, rfl, by simp [Instr.operand]⟩

theorem ldbImm (v : Int) : Statement (.ldbImm v) :=
  ⟨rfl, rfl, ⟨2, "ldb", .immediate, 0x09, .ldbImm⟩, by simp [opcodeMap, loadStoreRows, operandArithRows, registerRows,
    stackControlRows], rfl, rfl, rfl, by simp [Instr.operand]⟩

theorem ldbDir (addr : Int) : Statement (.ldbDir addr) :=
  ⟨rfl, rfl, ⟨2, "ldb", .direct, 0x0A, .ldbDir⟩, by simp [opcodeMap, loadStoreRows, operandArithRows, registerRows,
    stackControlRows], rfl, rfl, rfl, by simp [Instr.operand]⟩

theorem ldbIdx (base : Int) : Statement (.ldbIdx base) :=
  ⟨rfl, rfl, ⟨2, "ldb", .indexed, 0x0B, .ldbIdx⟩, by simp [opcodeMap, loadStoreRows, operandArithRows, registerRows,
    stackControlRows], rfl, rfl, rfl, by simp [Instr.operand]⟩

theorem ldxImm (v : Int) : Statement (.ldxImm v) :=
  ⟨rfl, rfl, ⟨3, "ldx", .immediate, 0x0D, .ldxImm⟩, by simp [opcodeMap, loadStoreRows, operandArithRows, registerRows,
    stackControlRows], rfl, rfl, rfl, by simp [Instr.operand]⟩

theorem ldsImm (v : Int) : Statement (.ldsImm v) :=
  ⟨rfl, rfl, ⟨4, "lds", .immediate, 0x11, .ldsImm⟩, by simp [opcodeMap, loadStoreRows, operandArithRows, registerRows,
    stackControlRows], rfl, rfl, rfl, by simp [Instr.operand]⟩

theorem staDir (addr : Int) : Statement (.staDir addr) :=
  ⟨rfl, rfl, ⟨5, "sta", .direct, 0x16, .staDir⟩, by simp [opcodeMap, loadStoreRows, operandArithRows, registerRows,
    stackControlRows], rfl, rfl, rfl, by simp [Instr.operand]⟩

theorem staIdx (base : Int) : Statement (.staIdx base) :=
  ⟨rfl, rfl, ⟨5, "sta", .indexed, 0x17, .staIdx⟩, by simp [opcodeMap, loadStoreRows, operandArithRows, registerRows,
    stackControlRows], rfl, rfl, rfl, by simp [Instr.operand]⟩

theorem stbDir (addr : Int) : Statement (.stbDir addr) :=
  ⟨rfl, rfl, ⟨6, "stb", .direct, 0x1A, .stbDir⟩, by simp [opcodeMap, loadStoreRows, operandArithRows, registerRows,
    stackControlRows], rfl, rfl, rfl, by simp [Instr.operand]⟩

theorem stbIdx (base : Int) : Statement (.stbIdx base) :=
  ⟨rfl, rfl, ⟨6, "stb", .indexed, 0x1B, .stbIdx⟩, by simp [opcodeMap, loadStoreRows, operandArithRows, registerRows,
    stackControlRows], rfl, rfl, rfl, by simp [Instr.operand]⟩

theorem addaImm (v : Int) : Statement (.addaImm v) :=
  ⟨rfl, rfl, ⟨7, "adda", .immediate, 0x1D, .addaImm⟩, by simp [opcodeMap, loadStoreRows, operandArithRows, registerRows,
    stackControlRows], rfl, rfl, rfl, by simp [Instr.operand]⟩

theorem addaDir (addr : Int) : Statement (.addaDir addr) :=
  ⟨rfl, rfl, ⟨7, "adda", .direct, 0x1E, .addaDir⟩, by simp [opcodeMap, loadStoreRows, operandArithRows, registerRows,
    stackControlRows], rfl, rfl, rfl, by simp [Instr.operand]⟩

theorem addaIdx (base : Int) : Statement (.addaIdx base) :=
  ⟨rfl, rfl, ⟨7, "adda", .indexed, 0x1F, .addaIdx⟩, by simp [opcodeMap, loadStoreRows, operandArithRows, registerRows,
    stackControlRows], rfl, rfl, rfl, by simp [Instr.operand]⟩

theorem addbImm (v : Int) : Statement (.addbImm v) :=
  ⟨rfl, rfl, ⟨8, "addb", .immediate, 0x21, .addbImm⟩, by simp [opcodeMap, loadStoreRows, operandArithRows, registerRows,
    stackControlRows], rfl, rfl, rfl, by simp [Instr.operand]⟩

theorem addbDir (addr : Int) : Statement (.addbDir addr) :=
  ⟨rfl, rfl, ⟨8, "addb", .direct, 0x22, .addbDir⟩, by simp [opcodeMap, loadStoreRows, operandArithRows, registerRows,
    stackControlRows], rfl, rfl, rfl, by simp [Instr.operand]⟩

theorem addbIdx (base : Int) : Statement (.addbIdx base) :=
  ⟨rfl, rfl, ⟨8, "addb", .indexed, 0x23, .addbIdx⟩, by simp [opcodeMap, loadStoreRows, operandArithRows, registerRows,
    stackControlRows], rfl, rfl, rfl, by simp [Instr.operand]⟩

theorem subaImm (v : Int) : Statement (.subaImm v) :=
  ⟨rfl, rfl, ⟨9, "suba", .immediate, 0x25, .subaImm⟩, by simp [opcodeMap, loadStoreRows, operandArithRows, registerRows,
    stackControlRows], rfl, rfl, rfl, by simp [Instr.operand]⟩

theorem subaDir (addr : Int) : Statement (.subaDir addr) :=
  ⟨rfl, rfl, ⟨9, "suba", .direct, 0x26, .subaDir⟩, by simp [opcodeMap, loadStoreRows, operandArithRows, registerRows,
    stackControlRows], rfl, rfl, rfl, by simp [Instr.operand]⟩

theorem subaIdx (base : Int) : Statement (.subaIdx base) :=
  ⟨rfl, rfl, ⟨9, "suba", .indexed, 0x27, .subaIdx⟩, by simp [opcodeMap, loadStoreRows, operandArithRows, registerRows,
    stackControlRows], rfl, rfl, rfl, by simp [Instr.operand]⟩

theorem subbImm (v : Int) : Statement (.subbImm v) :=
  ⟨rfl, rfl, ⟨10, "subb", .immediate, 0x29, .subbImm⟩, by simp [opcodeMap, loadStoreRows, operandArithRows, registerRows,
    stackControlRows], rfl, rfl, rfl, by simp [Instr.operand]⟩

theorem subbDir (addr : Int) : Statement (.subbDir addr) :=
  ⟨rfl, rfl, ⟨10, "subb", .direct, 0x2A, .subbDir⟩, by simp [opcodeMap, loadStoreRows, operandArithRows, registerRows,
    stackControlRows], rfl, rfl, rfl, by simp [Instr.operand]⟩

theorem subbIdx (base : Int) : Statement (.subbIdx base) :=
  ⟨rfl, rfl, ⟨10, "subb", .indexed, 0x2B, .subbIdx⟩, by simp [opcodeMap, loadStoreRows, operandArithRows, registerRows,
    stackControlRows], rfl, rfl, rfl, by simp [Instr.operand]⟩

theorem andaImm (v : Int) : Statement (.andaImm v) :=
  ⟨rfl, rfl, ⟨11, "anda", .immediate, 0x2D, .andaImm⟩, by simp [opcodeMap, loadStoreRows, operandArithRows, registerRows,
    stackControlRows], rfl, rfl, rfl, by simp [Instr.operand]⟩

theorem andaDir (addr : Int) : Statement (.andaDir addr) :=
  ⟨rfl, rfl, ⟨11, "anda", .direct, 0x2E, .andaDir⟩, by simp [opcodeMap, loadStoreRows, operandArithRows, registerRows,
    stackControlRows], rfl, rfl, rfl, by simp [Instr.operand]⟩

theorem andaIdx (base : Int) : Statement (.andaIdx base) :=
  ⟨rfl, rfl, ⟨11, "anda", .indexed, 0x2F, .andaIdx⟩, by simp [opcodeMap, loadStoreRows, operandArithRows, registerRows,
    stackControlRows], rfl, rfl, rfl, by simp [Instr.operand]⟩

theorem andbImm (v : Int) : Statement (.andbImm v) :=
  ⟨rfl, rfl, ⟨12, "andb", .immediate, 0x31, .andbImm⟩, by simp [opcodeMap, loadStoreRows, operandArithRows, registerRows,
    stackControlRows], rfl, rfl, rfl, by simp [Instr.operand]⟩

theorem andbDir (addr : Int) : Statement (.andbDir addr) :=
  ⟨rfl, rfl, ⟨12, "andb", .direct, 0x32, .andbDir⟩, by simp [opcodeMap, loadStoreRows, operandArithRows, registerRows,
    stackControlRows], rfl, rfl, rfl, by simp [Instr.operand]⟩

theorem andbIdx (base : Int) : Statement (.andbIdx base) :=
  ⟨rfl, rfl, ⟨12, "andb", .indexed, 0x33, .andbIdx⟩, by simp [opcodeMap, loadStoreRows, operandArithRows, registerRows,
    stackControlRows], rfl, rfl, rfl, by simp [Instr.operand]⟩

theorem oraImm (v : Int) : Statement (.oraImm v) :=
  ⟨rfl, rfl, ⟨13, "ora", .immediate, 0x35, .oraImm⟩, by simp [opcodeMap, loadStoreRows, operandArithRows, registerRows,
    stackControlRows], rfl, rfl, rfl, by simp [Instr.operand]⟩

theorem oraDir (addr : Int) : Statement (.oraDir addr) :=
  ⟨rfl, rfl, ⟨13, "ora", .direct, 0x36, .oraDir⟩, by simp [opcodeMap, loadStoreRows, operandArithRows, registerRows,
    stackControlRows], rfl, rfl, rfl, by simp [Instr.operand]⟩

theorem oraIdx (base : Int) : Statement (.oraIdx base) :=
  ⟨rfl, rfl, ⟨13, "ora", .indexed, 0x37, .oraIdx⟩, by simp [opcodeMap, loadStoreRows, operandArithRows, registerRows,
    stackControlRows], rfl, rfl, rfl, by simp [Instr.operand]⟩

theorem orbImm (v : Int) : Statement (.orbImm v) :=
  ⟨rfl, rfl, ⟨14, "orb", .immediate, 0x39, .orbImm⟩, by simp [opcodeMap, loadStoreRows, operandArithRows, registerRows,
    stackControlRows], rfl, rfl, rfl, by simp [Instr.operand]⟩

theorem orbDir (addr : Int) : Statement (.orbDir addr) :=
  ⟨rfl, rfl, ⟨14, "orb", .direct, 0x3A, .orbDir⟩, by simp [opcodeMap, loadStoreRows, operandArithRows, registerRows,
    stackControlRows], rfl, rfl, rfl, by simp [Instr.operand]⟩

theorem orbIdx (base : Int) : Statement (.orbIdx base) :=
  ⟨rfl, rfl, ⟨14, "orb", .indexed, 0x3B, .orbIdx⟩, by simp [opcodeMap, loadStoreRows, operandArithRows, registerRows,
    stackControlRows], rfl, rfl, rfl, by simp [Instr.operand]⟩

theorem pshImm (v : Int) : Statement (.pshImm v) :=
  ⟨rfl, rfl, ⟨15, "psh", .immediate, 0x3D, .pshImm⟩, by simp [opcodeMap, loadStoreRows, operandArithRows, registerRows,
    stackControlRows], rfl, rfl, rfl, by simp [Instr.operand]⟩

theorem pshDir (addr : Int) : Statement (.pshDir addr) :=
  ⟨rfl, rfl, ⟨15, "psh", .direct, 0x3E, .pshDir⟩, by simp [opcodeMap, loadStoreRows, operandArithRows, registerRows,
    stackControlRows], rfl, rfl, rfl, by simp [Instr.operand]⟩

theorem pshIdx (base : Int) : Statement (.pshIdx base) :=
  ⟨rfl, rfl, ⟨15, "psh", .indexed, 0x3F, .pshIdx⟩, by simp [opcodeMap, loadStoreRows, operandArithRows, registerRows,
    stackControlRows], rfl, rfl, rfl, by simp [Instr.operand]⟩

theorem add : Statement .add :=
  ⟨rfl, rfl, ⟨16, "add", .implied, 0x40, fun _ => .add⟩, by simp [opcodeMap, loadStoreRows, operandArithRows, registerRows,
    stackControlRows], rfl, rfl, rfl, by simp [Instr.operand]⟩

theorem sub : Statement .sub :=
  ⟨rfl, rfl, ⟨17, "sub", .implied, 0x44, fun _ => .sub⟩, by simp [opcodeMap, loadStoreRows, operandArithRows, registerRows,
    stackControlRows], rfl, rfl, rfl, by simp [Instr.operand]⟩

theorem inca : Statement .inca :=
  ⟨rfl, rfl, ⟨18, "inca", .implied, 0x48, fun _ => .inca⟩, by simp [opcodeMap, loadStoreRows, operandArithRows, registerRows,
    stackControlRows], rfl, rfl, rfl, by simp [Instr.operand]⟩

theorem incb : Statement .incb :=
  ⟨rfl, rfl, ⟨19, "incb", .implied, 0x4C, fun _ => .incb⟩, by simp [opcodeMap, loadStoreRows, operandArithRows, registerRows,
    stackControlRows], rfl, rfl, rfl, by simp [Instr.operand]⟩

theorem deca : Statement .deca :=
  ⟨rfl, rfl, ⟨20, "deca", .implied, 0x50, fun _ => .deca⟩, by simp [opcodeMap, loadStoreRows, operandArithRows, registerRows,
    stackControlRows], rfl, rfl, rfl, by simp [Instr.operand]⟩

theorem decb : Statement .decb :=
  ⟨rfl, rfl, ⟨21, "decb", .implied, 0x54, fun _ => .decb⟩, by simp [opcodeMap, loadStoreRows, operandArithRows, registerRows,
    stackControlRows], rfl, rfl, rfl, by simp [Instr.operand]⟩

theorem inva : Statement .inva :=
  ⟨rfl, rfl, ⟨22, "inva", .implied, 0x58, fun _ => .inva⟩, by simp [opcodeMap, loadStoreRows, operandArithRows, registerRows,
    stackControlRows], rfl, rfl, rfl, by simp [Instr.operand]⟩

theorem invb : Statement .invb :=
  ⟨rfl, rfl, ⟨23, "invb", .implied, 0x5C, fun _ => .invb⟩, by simp [opcodeMap, loadStoreRows, operandArithRows, registerRows,
    stackControlRows], rfl, rfl, rfl, by simp [Instr.operand]⟩

theorem incx : Statement .incx :=
  ⟨rfl, rfl, ⟨24, "incx", .implied, 0x60, fun _ => .incx⟩, by simp [opcodeMap, loadStoreRows, operandArithRows, registerRows,
    stackControlRows], rfl, rfl, rfl, by simp [Instr.operand]⟩

theorem decx : Statement .decx :=
  ⟨rfl, rfl, ⟨25, "decx", .implied, 0x64, fun _ => .decx⟩, by simp [opcodeMap, loadStoreRows, operandArithRows, registerRows,
    stackControlRows], rfl, rfl, rfl, by simp [Instr.operand]⟩

theorem cmp : Statement .cmp :=
  ⟨rfl, rfl, ⟨26, "cmp", .implied, 0x68, fun _ => .cmp⟩, by simp [opcodeMap, loadStoreRows, operandArithRows, registerRows,
    stackControlRows], rfl, rfl, rfl, by simp [Instr.operand]⟩

theorem hlt : Statement .hlt :=
  ⟨rfl, rfl, ⟨27, "hlt", .implied, 0x6C, fun _ => .hlt⟩, by simp [opcodeMap, loadStoreRows, operandArithRows, registerRows,
    stackControlRows], rfl, rfl, rfl, by simp [Instr.operand]⟩

theorem psha : Statement .psha :=
  ⟨rfl, rfl, ⟨28, "psha", .implied, 0x70, fun _ => .psha⟩, by simp [opcodeMap, loadStoreRows, operandArithRows, registerRows,
    stackControlRows], rfl, rfl, rfl, by simp [Instr.operand]⟩

theorem pshb : Statement .pshb :=
  ⟨rfl, rfl, ⟨29, "pshb", .implied, 0x74, fun _ => .pshb⟩, by simp [opcodeMap, loadStoreRows, operandArithRows, registerRows,
    stackControlRows], rfl, rfl, rfl, by simp [Instr.operand]⟩

theorem popa : Statement .popa :=
  ⟨rfl, rfl, ⟨30, "popa", .implied, 0x78, fun _ => .popa⟩, by simp [opcodeMap, loadStoreRows, operandArithRows, registerRows,
    stackControlRows], rfl, rfl, rfl, by simp [Instr.operand]⟩

theorem popb : Statement .popb :=
  ⟨rfl, rfl, ⟨31, "popb", .implied, 0x7C, fun _ => .popb⟩, by simp [opcodeMap, loadStoreRows, operandArithRows, registerRows,
    stackControlRows], rfl, rfl, rfl, by simp [Instr.operand]⟩

theorem jmp (target : Int) : Statement (.jmp target) :=
  ⟨rfl, rfl, ⟨32, "jmp", .direct, 0x82, .jmp⟩, by simp [opcodeMap, loadStoreRows, operandArithRows, registerRows,
    stackControlRows], rfl, rfl, rfl, by simp [Instr.operand]⟩

theorem jne (target : Int) : Statement (.jne target) :=
  ⟨rfl, rfl, ⟨33, "jne", .direct, 0x86, .jne⟩, by simp [opcodeMap, loadStoreRows, operandArithRows, registerRows,
    stackControlRows], rfl, rfl, rfl, by simp [Instr.operand]⟩

theorem jeq (target : Int) : Statement (.jeq target) :=
  ⟨rfl, rfl, ⟨34, "jeq", .direct, 0x8A, .jeq⟩, by simp [opcodeMap, loadStoreRows, operandArithRows, registerRows,
    stackControlRows], rfl, rfl, rfl, by simp [Instr.operand]⟩

theorem jgt (target : Int) : Statement (.jgt target) :=
  ⟨rfl, rfl, ⟨35, "jgt", .direct, 0x8E, .jgt⟩, by simp [opcodeMap, loadStoreRows, operandArithRows, registerRows,
    stackControlRows], rfl, rfl, rfl, by simp [Instr.operand]⟩

theorem jlt (target : Int) : Statement (.jlt target) :=
  ⟨rfl, rfl, ⟨36, "jlt", .direct, 0x92, .jlt⟩, by simp [opcodeMap, loadStoreRows, operandArithRows, registerRows,
    stackControlRows], rfl, rfl, rfl, by simp [Instr.operand]⟩

theorem jge (target : Int) : Statement (.jge target) :=
  ⟨rfl, rfl, ⟨37, "jge", .direct, 0x96, .jge⟩, by simp [opcodeMap, loadStoreRows, operandArithRows, registerRows,
    stackControlRows], rfl, rfl, rfl, by simp [Instr.operand]⟩

theorem jle (target : Int) : Statement (.jle target) :=
  ⟨rfl, rfl, ⟨38, "jle", .direct, 0x9A, .jle⟩, by simp [opcodeMap, loadStoreRows, operandArithRows, registerRows,
    stackControlRows], rfl, rfl, rfl, by simp [Instr.operand]⟩

theorem jsr (target : Int) : Statement (.jsr target) :=
  ⟨rfl, rfl, ⟨39, "jsr", .direct, 0x9E, .jsr⟩, by simp [opcodeMap, loadStoreRows, operandArithRows, registerRows,
    stackControlRows], rfl, rfl, rfl, by simp [Instr.operand]⟩

theorem rfs : Statement .rfs :=
  ⟨rfl, rfl, ⟨40, "rfs", .implied, 0xA0, fun _ => .rfs⟩, by simp [opcodeMap, loadStoreRows, operandArithRows, registerRows,
    stackControlRows], rfl, rfl, rfl, by simp [Instr.operand]⟩

end Sys2Proof.Laws.RecordShape
end

