-- ==== Sys2Proof/Tests/Slice0.lean ====
section
/-! SUPPORT. Tests with expected results from spec/95_test_vectors.md and spec/30_encoding.md (each theorem's comment names the
rows), and for every obligation with hypotheses a witness that meets them. -/

namespace Sys2Proof.Tests

open Sys2Proof.Machine

set_option maxRecDepth 8000

/-! ### Words written out from the spec's encodings (95_test_vectors.md sections 2.1 to 2.6) -/

theorem test_decode_loads :
    decode (Cell.ofWord 0xE0B) = .ok (.ldaImm 7) ∧
    decode (Cell.ofWord 0x1000D) = .ok (.ldaDir 0x80) ∧
    decode (Cell.ofWord 0x200F) = .ok (.ldaIdx 0x10) ∧
    decode (Cell.ofWord 0x613) = .ok (.ldbImm 3) ∧
    decode (Cell.ofWord 0x10015) = .ok (.ldbDir 0x80) ∧
    decode (Cell.ofWord 0x10017) = .ok (.ldbIdx 0x80) ∧
    decode (Cell.ofWord 0x24681B) = .ok (.ldxImm 0x1234) ∧
    decode (Cell.ofWord 0x20023) = .ok (.ldsImm 0x100) := by decide

theorem test_decode_stores :
    decode (Cell.ofWord 0x1002D) = .ok (.staDir 0x80) ∧
    decode (Cell.ofWord 0x1002F) = .ok (.staIdx 0x80) ∧
    decode (Cell.ofWord 0x10235) = .ok (.stbDir 0x81) ∧
    decode (Cell.ofWord 0x37) = .ok (.stbIdx 0) := by decide

theorem test_decode_add_operand :
    decode (Cell.ofWord 0x23B) = .ok (.addaImm 1) ∧
    decode (Cell.ofWord 0x1003D) = .ok (.addaDir 0x80) ∧
    decode (Cell.ofWord 0x1003F) = .ok (.addaIdx 0x80) ∧
    decode (Cell.ofWord 0x2043) = .ok (.addbImm 0x10) ∧
    decode (Cell.ofWord 0x10045) = .ok (.addbDir 0x80) ∧
    decode (Cell.ofWord 0x10047) = .ok (.addbIdx 0x80) := by decide

theorem test_decode_sub_operand :
    decode (Cell.ofWord 0x64B) = .ok (.subaImm 3) ∧
    decode (Cell.ofWord 0x1004D) = .ok (.subaDir 0x80) ∧
    decode (Cell.ofWord 0x1004F) = .ok (.subaIdx 0x80) ∧
    decode (Cell.ofWord 0x653) = .ok (.subbImm 3) ∧
    decode (Cell.ofWord 0x10055) = .ok (.subbDir 0x80) ∧
    decode (Cell.ofWord 0x10057) = .ok (.subbIdx 0x80) := by decide

theorem test_decode_and_operand :
    decode (Cell.ofWord 0x1E5B) = .ok (.andaImm 0x0F) ∧
    decode (Cell.ofWord 0x1005D) = .ok (.andaDir 0x80) ∧
    decode (Cell.ofWord 0x1005F) = .ok (.andaIdx 0x80) ∧
    decode (Cell.ofWord 0x63) = .ok (.andbImm 0) ∧
    decode (Cell.ofWord 0x10065) = .ok (.andbDir 0x80) ∧
    decode (Cell.ofWord 0x10067) = .ok (.andbIdx 0x80) := by decide

theorem test_decode_or_operand :
    decode (Cell.ofWord 0x1E6B) = .ok (.oraImm 0x0F) ∧
    decode (Cell.ofWord 0x1006D) = .ok (.oraDir 0x80) ∧
    decode (Cell.ofWord 0x1006F) = .ok (.oraIdx 0x80) ∧
    decode (Cell.ofWord 0x273) = .ok (.orbImm 1) ∧
    decode (Cell.ofWord 0x10075) = .ok (.orbDir 0x80) ∧
    decode (Cell.ofWord 0x10077) = .ok (.orbIdx 0x80) := by decide

theorem test_decode_register_ops :
    decode (Cell.ofWord 0x81) = .ok (.add) ∧
    decode (Cell.ofWord 0x89) = .ok (.sub) ∧
    decode (Cell.ofWord 0x91) = .ok (.inca) ∧
    decode (Cell.ofWord 0x99) = .ok (.incb) ∧
    decode (Cell.ofWord 0xA1) = .ok (.deca) ∧
    decode (Cell.ofWord 0xA9) = .ok (.decb) ∧
    decode (Cell.ofWord 0xB1) = .ok (.inva) ∧
    decode (Cell.ofWord 0xB9) = .ok (.invb) ∧
    decode (Cell.ofWord 0xC1) = .ok (.incx) ∧
    decode (Cell.ofWord 0xC9) = .ok (.decx) ∧
    decode (Cell.ofWord 0xD1) = .ok (.cmp) ∧
    decode (Cell.ofWord 0xD9) = .ok (.hlt) := by decide

theorem test_decode_stack :
    decode (Cell.ofWord 0x547B) = .ok (.pshImm 0x2A) ∧
    decode (Cell.ofWord 0x1007D) = .ok (.pshDir 0x80) ∧
    decode (Cell.ofWord 0x1007F) = .ok (.pshIdx 0x80) ∧
    decode (Cell.ofWord 0xE1) = .ok (.psha) ∧
    decode (Cell.ofWord 0xE9) = .ok (.pshb) ∧
    decode (Cell.ofWord 0xF1) = .ok (.popa) ∧
    decode (Cell.ofWord 0xF9) = .ok (.popb) := by decide

theorem test_decode_control :
    decode (Cell.ofWord 0x905) = .ok (.jmp 4) ∧
    decode (Cell.ofWord 0x210D) = .ok (.jne 0x10) ∧
    decode (Cell.ofWord 0x2115) = .ok (.jeq 0x10) ∧
    decode (Cell.ofWord 0x211D) = .ok (.jgt 0x10) ∧
    decode (Cell.ofWord 0x2125) = .ok (.jlt 0x10) ∧
    decode (Cell.ofWord 0x212D) = .ok (.jge 0x10) ∧
    decode (Cell.ofWord 0x2135) = .ok (.jle 0x10) ∧
    decode (Cell.ofWord 0x413D) = .ok (.jsr 0x20) ∧
    decode (Cell.ofWord 0x141) = .ok (.rfs) := by decide

/-- Rows X3 to X7: unassigned OPs; row X2: a data cell; row J16: a negative operand. -/
theorem test_decode_rejects :
    decode (Cell.ofWord 0x1) = .error (.unassigned 0x00) ∧ decode (Cell.ofWord 0xA11) = .error (.unassigned 0x08) ∧
    decode (Cell.ofWord 0x201D) = .error (.unassigned 0x0E) ∧ decode (Cell.ofWord 0x143) = .error (.unassigned 0xA1) ∧
    decode (Cell.ofWord 0x1FF) = .error (.unassigned 0xFF) ∧ decode (Cell.ofWord 0x5400) = .error .dataCell ∧
    decode (Cell.ofWord (-512 + 0x10D)) = .ok (.jne (-1)) := by decide

/-- The table's row of `hlt` (9 bits, 16 in whole bytes): `match` 0x0D9; and a format-N record with VAL = 99 (row X10, R52). -/
theorem test_decodeTableWord :
    decodeTableWord 16 0x0D9 = some .hlt ∧ decodeTableWord 16 0xC681 = some .add ∧ decodeTableWord 16 0 = none := by decide

/-- R45, R48: the 26 bits of row J14's cell under VW = 17 hold VAL = -65536, since 65536 is not representable there. -/
theorem test_cell_bits :
    (Cell.ofBits 17 0x2000105).val = -65536 ∧ (encode (.ldaImm (-7))).toBits 17 = BitVec.ofInt 26 (-7 * 512 + 0x0B) := by decide

/-! ### Ill-formed terms that the checks refuse -/

theorem test_wellFormed_refuses_unrepresentable_operand :
    (Instr.ldaImm 65536).wellFormed (.bits 17 (by decide)) = false ∧
    (Instr.ldaImm 65535).wellFormed (.bits 17 (by decide)) = true := by decide

theorem test_assembled_refuses_negative_and_wide_operands :
    (Instr.ldaImm (-1)).assembled = false ∧ (Instr.ldaImm 0x10000).assembled = false ∧
    (Instr.ldaImm 0xFFFF).assembled = true := by decide

theorem test_memory_wf_refuses :
    ¬ Memory.wf [(2, Cell.ofValue 1), (1, Cell.ofValue 1)] ∧ ¬ Memory.wf [(1, Cell.empty)] ∧
    ¬ Memory.wf [(65536, Cell.ofValue 1)] ∧ Memory.wf [(1, Cell.ofValue 1), (65535, Cell.ofValue 1)] := by decide

/-! ### One step on the spec's vectors -/

/-- The state after one step of the instruction with number `w` placed at PC, under the reference parameters. -/
def after (s : State) (w : Int) (cfg : Config := Config.reference) : State :=
  match stepIn cfg (loadCell s s.pc (Cell.ofWord w)) with
  | .next t => t
  | .fault _ => State.reset
  | .refused _ => State.reset

/-- The reset state with A, B and X. -/
def withABX (a b x : Int) : State := { State.reset with a := a, b := b, x := x }

/-- With one data cell. -/
def holding (s : State) (addr : Nat) (v : Int) : State := { s with mem := [(addr, Cell.ofValue v)] }

/-- With SP. -/
def withSP (s : State) (sp : Int) : State := { s with sp := sp }

/-- With the flags Z, G, L, at address 6 (section 2.6). -/
def withFlags (z g l : Bool) : State := { State.reset with z := z, g := g, l := l, pc := 6 }

/-- The fault record. -/
def fault (s : State) : BitVec 2 × Int := (s.fc.toBits, s.fa)

/-- A 17-bit machine (section 2.7). -/
def narrow : Config := ⟨.bits 17 (by decide), .none⟩

/-- Rows RG1 to RG4. -/
theorem test_add :
    (let t := after (withABX 7 3 0) 0x81; (t.b, t.pc) = (10, 1)) ∧
    (let t := after (withABX (-5) 3 0) 0x81; (t.b, t.pc) = (-2, 1)) ∧
    (let t := after (withABX 0xFFFF 1 0) 0x81; (t.b, t.pc) = (65536, 1)) := by decide

/-- Rows RG5, RG6. -/
theorem test_sub :
    (let t := after (withABX 7 3 0) 0x89; (t.b, t.pc) = (4, 1)) ∧
    (let t := after (withABX 3 7 0) 0x89; (t.b, t.pc) = (-4, 1)) := by decide

/-- Rows RG8 to RG10, RG18. -/
theorem test_increments :
    (let t := after (withABX 255 0 0) 0x91; (t.a, t.pc) = (256, 1)) ∧
    (let t := after (withABX (-1) 0 0) 0x91; (t.a, t.pc) = (0, 1)) ∧
    (let t := after (withABX 0 127 0) 0x99; (t.b, t.pc) = (128, 1)) ∧
    (let t := after (withABX 0 0 0xFFFF) 0xC1; (t.x, t.pc) = (65536, 1)) := by decide

/-- Rows RG11, RG12, RG19. -/
theorem test_decrements :
    (let t := after (withABX 0 0 0) 0xA1; (t.a, t.pc) = (-1, 1)) ∧
    (let t := after (withABX 0 1 0) 0xA9; (t.b, t.pc) = (0, 1)) ∧
    (let t := after (withABX 0 0 0) 0xC9; (t.x, t.pc) = (-1, 1)) := by decide

/-- Rows RG13 to RG17. -/
theorem test_invert :
    (let t := after (withABX 0 0 0) 0xB1; (t.a, t.pc) = (-1, 1)) ∧
    (let t := after (withABX (-1) 0 0) 0xB1; (t.a, t.pc) = (0, 1)) ∧
    (let t := after (withABX 255 0 0) 0xB1; (t.a, t.pc) = (-256, 1)) ∧
    (let t := after (withABX 0 15 0) 0xB9; (t.b, t.pc) = (-16, 1)) := by decide

/-- Rows RG20 to RG25. -/
theorem test_cmp :
    (let t := after (withABX 7 3 0) 0xD1; (t.z, t.g, t.l, t.pc) = (false, true, false, 1)) ∧
    (let t := after (withABX 3 7 0) 0xD1; (t.z, t.g, t.l, t.pc) = (false, false, true, 1)) ∧
    (let t := after (withABX 5 5 0) 0xD1; (t.z, t.g, t.l, t.pc) = (true, false, false, 1)) ∧
    (let t := after (withABX (-1) 1 0) 0xD1; (t.z, t.g, t.l, t.pc) = (false, false, true, 1)) ∧
    (let t := after ({ withABX 7 3 0 with z := true }) 0xD1; (t.z, t.g, t.l, t.pc) = (true, true, false, 1)) := by decide

/-- Rows RG26, X9. -/
theorem test_hlt :
    (let t := after { State.reset with pc := 5 } 0xD9; (t.h, t.pc, t.runState) = (true, 6, .halted)) ∧
    (let t := after { State.reset with pc := 0xFFFF } 0xD9; (t.h, t.pc) = (true, 0x10000)) := by decide

/-- Rows X2, X6, X8. -/
theorem test_noop_cells :
    (after { withABX 1 0 0 with pc := 9 } 0x5400).pc = 0x0A ∧
    (after { State.reset with pc := 9 } 0x143).pc = 0x0A ∧
    (let t := after { State.reset with pc := 0xFFFF } 0; (t.pc, t.h, t.runState) = (0x10000, false, .halted)) := by decide

/-- Rows LD2, LD3, LD5 to LD8, LD14. -/
theorem test_lda :
    (let t := after (withABX 1 0 0) 0x1FFFE0B; (t.a, t.pc) = (65535, 1)) ∧
    (let t := after (holding State.reset 0x80 5) 0x1000D; (t.a, t.pc) = (5, 1)) ∧
    (let t := after (holding (withABX 0 0 2) 0x12 42) 0x200F; (t.a, t.pc) = (42, 1)) ∧
    (let t := after (withABX 7 0 0) 0xD; (fault t, t.a, t.pc) = ((2, 0), 7, 0)) ∧
    fault (after (withABX 0 0 1) 0x1FFFE0F) = (1, 0x10000) ∧
    fault (after (withABX 0 0 (-1)) 0xF) = (1, -1) ∧
    (after State.reset (-7 * 512 + 0x0B)).a = -7 := by decide

/-- Rows LD9 to LD13. -/
theorem test_ldb_ldx_lds :
    (let t := after (State.reset) 0x613; (t.b, t.pc) = (3, 1)) ∧
    (let t := after (holding State.reset 0x80 (-4)) 0x10015; (t.b, t.pc) = (-4, 1)) ∧
    (let t := after (holding (withABX 0 0 0x10) 0x90 6) 0x10017; (t.b, t.pc) = (6, 1)) ∧
    (let t := after (State.reset) 0x24681B; (t.x, t.pc) = (0x1234, 1)) ∧
    (let t := after (State.reset) 0x20023; (t.sp, t.pc) = (0x100, 1)) := by decide

/-- Rows S1, S2, S4 to S6. -/
theorem test_sta :
    (let t := after (withABX 5 0 0) 0x1002D; (Memory.read t.mem 0x80, t.pc) = (Cell.ofValue 5, 1)) ∧
    (let t := after (holding State.reset 0x80 9) 0x1002D; (Memory.read t.mem 0x80, t.pc) = (Cell.empty, 1)) ∧
    (let t := after (withABX 5 0 0) 0x2D; (Memory.read t.mem 0, t.pc) = (Cell.ofValue 5, 1)) ∧
    (let t := after (withABX 5 0 3) 0x1002F; (Memory.read t.mem 0x83, t.pc) = (Cell.ofValue 5, 1)) ∧
    fault (after (withABX 5 0 1) 0x1FFFE2F) = (1, 0x10000) := by decide

/-- Row S3: the `hlt` at 2 is gone. -/
theorem test_store_on_record :
    Memory.read (after { withABX 5 0 0 with mem := [(2, ⟨.record, 0x6C, 0⟩)] } 0x42D).mem 2 = Cell.ofValue 5 := by decide

/-- Rows S7, S8. -/
theorem test_stb :
    (let t := after (withABX 0 (-4) 0) 0x10235; (Memory.read t.mem 0x81, t.pc) = (Cell.ofValue (-4), 1)) ∧
    (let t := after (withABX 0 1 0xFFFF) 0x37; (Memory.read t.mem 0xFFFF, t.pc) = (Cell.ofValue 1, 1)) := by decide

/-- Rows O1 to O6, O31. -/
theorem test_adda_addb :
    (let t := after (withABX 255 0 0) 0x23B; (t.a, t.pc) = (256, 1)) ∧
    (let t := after (holding (withABX 1 0 0) 0x80 (-3)) 0x1003D; (t.a, t.pc) = (-2, 1)) ∧
    (let t := after (holding (withABX 1 0 1) 0x81 4) 0x1003F; (t.a, t.pc) = (5, 1)) ∧
    (let t := after (withABX 0 32 0) 0x2043; (t.b, t.pc) = (48, 1)) ∧
    (let t := after (withABX 0 1 0) 0x10045; (t.b, t.pc) = (1, 1)) ∧
    (let t := after (holding (withABX 0 1 2) 0x82 2) 0x10047; (t.b, t.pc) = (3, 1)) ∧
    (let t := after (withABX 1 0 0) 0x3D; (fault t, t.a, t.pc) = ((2, 0), 1, 0)) := by decide

/-- Rows O7 to O12. -/
theorem test_subtract_immediate_alias :
    (let t := after (withABX 10 20 0) 0x64B ⟨.unbounded, .none⟩; (t.a, t.b, t.pc) = (7, 20, 1)) ∧
    (let t := after (withABX 10 20 0) 0x64B ⟨.unbounded, .subbAsSuba⟩; (t.a, t.b, t.pc) = (7, 20, 1)) ∧
    (let t := after (withABX 10 20 0) 0x64B ⟨.unbounded, .subaAsSubb⟩; (t.a, t.b, t.pc) = (10, 17, 1)) ∧
    (let t := after (withABX 10 20 0) 0x653 ⟨.unbounded, .none⟩; (t.a, t.b, t.pc) = (10, 17, 1)) ∧
    (let t := after (withABX 10 20 0) 0x653 ⟨.unbounded, .subbAsSuba⟩; (t.a, t.b, t.pc) = (7, 20, 1)) ∧
    (let t := after (withABX 10 20 0) 0x653 ⟨.unbounded, .subaAsSubb⟩; (t.a, t.b, t.pc) = (10, 17, 1)) := by decide

/-- Rows O13 to O16. -/
theorem test_subtract_memory :
    (let t := after (holding (withABX 10 20 0) 0x80 3) 0x1004D ⟨.unbounded, .subaAsSubb⟩; (t.a, t.b, t.pc) = (7, 20, 1)) ∧
    (let t := after (holding (withABX 10 20 0) 0x80 3) 0x10055 ⟨.unbounded, .subbAsSuba⟩; (t.a, t.b, t.pc) = (10, 17, 1)) ∧
    (let t := after (holding (withABX 3 0 1) 0x81 5) 0x1004F; (t.a, t.pc) = (-2, 1)) ∧
    (let t := after (holding State.reset 0x80 1) 0x10057; (t.b, t.pc) = (-1, 1)) := by decide

/-- Rows O17 to O23. -/
theorem test_and :
    (let t := after (withABX 0x3C 0 0) 0x1E5B; (t.a, t.pc) = (0x0C, 1)) ∧
    (let t := after (withABX (-1) 0 0) 0x1FE5B; (t.a, t.pc) = (255, 1)) ∧
    (let t := after (holding (withABX 0x1FF 0 0) 0x80 0xF0) 0x1005D; (t.a, t.pc) = (0xF0, 1)) ∧
    (let t := after (holding (withABX (-2) 0 1) 0x81 7) 0x1005F; (t.a, t.pc) = (6, 1)) ∧
    (let t := after (withABX 0 0x55 0) 0x63; (t.b, t.pc) = (0, 1)) ∧
    (let t := after (holding (withABX 0 (-256) 0) 0x80 (-1)) 0x10065; (t.b, t.pc) = (-256, 1)) ∧
    (let t := after (holding (withABX 0 6 2) 0x82 3) 0x10067; (t.b, t.pc) = (2, 1)) := by decide

/-- Rows O24 to O30, O32. -/
theorem test_or :
    (let t := after (withABX 0x30 0 0) 0x1E6B; (t.a, t.pc) = (0x3F, 1)) ∧
    (let t := after (withABX (-256) 0 0) 0x1FE6B; (t.a, t.pc) = (-1, 1)) ∧
    (let t := after (holding (withABX 1 0 0) 0x80 0x100) 0x1006D; (t.a, t.pc) = (0x101, 1)) ∧
    (let t := after (holding (withABX 0 0 1) 0x81 (-1)) 0x1006F; (t.a, t.pc) = (-1, 1)) ∧
    (let t := after (State.reset) 0x273; (t.b, t.pc) = (1, 1)) ∧
    (let t := after (withABX 0 5 0) 0x10075; (t.b, t.pc) = (5, 1)) ∧
    (let t := after (holding (withABX 0 4 0) 0x80 3) 0x10077; (t.b, t.pc) = (7, 1)) ∧
    (let t := after (withABX 1 0 0x10000) 0x6F; (fault t, t.a) = ((1, 0x10000), 1)) := by decide

/-- Rows K1 to K4, K6. -/
theorem test_psha_pshb :
    (let t := after (withSP (withABX 9 0 0) 0x100) 0xE1; (t.sp, Memory.read t.mem 0xFF, t.pc) = (0xFF, Cell.ofValue 9, 1)) ∧
    (let t := after (withABX 9 0 0) 0xE1; (fault t, t.sp, t.pc) = ((1, -1), 0, 0)) ∧
    (let t := after (withSP (withABX 9 0 0) 0x10000) 0xE1; (t.sp, Memory.read t.mem 0xFFFF, t.pc) = (0xFFFF, Cell.ofValue 9, 1)) ∧
    fault (after (withSP State.reset 0x10001) 0xE1) = (1, 0x10000) ∧
    (let t := after (withSP (withABX 0 (-4) 0) 0xFF) 0xE9; (t.sp, Memory.read t.mem 0xFE, t.pc) = (0xFE, Cell.ofValue (-4), 1)) := by decide

/-- Rows K7, K9 to K14. -/
theorem test_psh :
    (let t := after (withSP State.reset 0x100) 0x547B; (t.sp, Memory.read t.mem 0xFF, t.pc) = (0xFF, Cell.ofValue 42, 1)) ∧
    (let t := after (withSP (holding State.reset 0x80 5) 0x100) 0x1007D; (t.sp, Memory.read t.mem 0xFF, t.pc) = (0xFF, Cell.ofValue 5, 1)) ∧
    (let t := after (withSP State.reset 0x100) 0x7D; (fault t, t.sp) = ((2, 0), 0x100)) ∧
    fault (after (holding State.reset 0x80 5) 0x1007D) = (1, -1) ∧
    (let t := after (withSP (holding (withABX 0 0 2) 0x82 7) 0x100) 0x1007F; (t.sp, Memory.read t.mem 0xFF, t.pc) = (0xFF, Cell.ofValue 7, 1)) ∧
    fault (after (withABX 0 0 1) 0x1FFFE7F) = (1, 0x10000) ∧
    (let t := after (withSP (holding State.reset 0xFF 3) 0x100) 0x1FE7D; (t.sp, Memory.read t.mem 0xFF, t.pc) = (0xFF, Cell.ofValue 3, 1)) := by decide

/-- Rows K15 to K20. -/
theorem test_pops :
    (let t := after (withSP (holding State.reset 0xFF 9) 0xFF) 0xF1; (t.a, t.sp, t.pc) = (9, 0x100, 1)) ∧
    fault (after (withSP State.reset 0x10000) 0xF1) = (1, 0x10000) ∧
    (let t := after (withABX 1 0 0) 0xF1; (fault t, t.a, t.sp) = ((2, 0), 1, 0)) ∧
    (let t := after (withSP (holding State.reset 0xFFFF 1) 0xFFFF) 0xF1; (t.a, t.sp, t.pc) = (1, 0x10000, 1)) ∧
    (let t := after (withSP (holding State.reset 0xFE (-4)) 0xFE) 0xF9; (t.b, t.sp, t.pc) = (-4, 0xFF, 1)) ∧
    (let t := after (withSP (withABX 0 5 0) 0x200) 0xF9; (t.b, t.sp, t.pc) = (0, 0x201, 1)) := by decide

/-- Rows J1 to J6, jne, jeq, jgt: taken is 0x10, not taken 7. -/
theorem test_jumps_equality :
    [(after (withFlags false false false) 0x210D).pc, (after (withFlags true false false) 0x210D).pc, (after (withFlags false true false) 0x210D).pc, (after (withFlags false false true) 0x210D).pc, (after (withFlags false true true) 0x210D).pc, (after (withFlags true true true) 0x210D).pc] = [16, 7, 16, 16, 16, 7] ∧
    [(after (withFlags false false false) 0x2115).pc, (after (withFlags true false false) 0x2115).pc, (after (withFlags false true false) 0x2115).pc, (after (withFlags false false true) 0x2115).pc, (after (withFlags false true true) 0x2115).pc, (after (withFlags true true true) 0x2115).pc] = [7, 16, 7, 7, 7, 16] ∧
    [(after (withFlags false false false) 0x211D).pc, (after (withFlags true false false) 0x211D).pc, (after (withFlags false true false) 0x211D).pc, (after (withFlags false false true) 0x211D).pc, (after (withFlags false true true) 0x211D).pc, (after (withFlags true true true) 0x211D).pc] = [7, 7, 16, 7, 16, 16] := by decide

/-- Rows J1 to J6, jlt, jge, jle: taken is 0x10, not taken 7. -/
theorem test_jumps_order :
    [(after (withFlags false false false) 0x2125).pc, (after (withFlags true false false) 0x2125).pc, (after (withFlags false true false) 0x2125).pc, (after (withFlags false false true) 0x2125).pc, (after (withFlags false true true) 0x2125).pc, (after (withFlags true true true) 0x2125).pc] = [7, 7, 7, 16, 16, 16] ∧
    [(after (withFlags false false false) 0x212D).pc, (after (withFlags true false false) 0x212D).pc, (after (withFlags false true false) 0x212D).pc, (after (withFlags false false true) 0x212D).pc, (after (withFlags false true true) 0x212D).pc, (after (withFlags true true true) 0x212D).pc] = [7, 16, 16, 7, 16, 16] ∧
    [(after (withFlags false false false) 0x2135).pc, (after (withFlags true false false) 0x2135).pc, (after (withFlags false true false) 0x2135).pc, (after (withFlags false false true) 0x2135).pc, (after (withFlags false true true) 0x2135).pc, (after (withFlags true true true) 0x2135).pc] = [7, 16, 7, 16, 16, 16] := by decide

/-- Rows J7, J9 to J11, J13. -/
theorem test_jmp_jsr_rfs :
    (after { State.reset with pc := 4 } 0x105).pc = 0 ∧
    (let t := after { State.reset with pc := 4 } 0x413D; (t.rs, t.pc) = (5, 0x20)) ∧
    (let t := after { State.reset with pc := 0xFFFF, rs := 9 } 0x13D; (t.rs, t.pc) = (0x10000, 0)) ∧
    (let t := after { State.reset with pc := 0x22, rs := 5 } 0x141; (t.rs, t.pc) = (5, 5)) ∧
    (let t := after { State.reset with pc := 3, rs := 0x10000 } 0x141; (t.pc, t.h, t.runState) = (0x10000, false, .halted)) := by decide

/-- Rows J14 to J17. -/
theorem test_jump_targets_out_of_range :
    (let t := after { State.reset with pc := 4 } 0x2000105; (fault t, t.pc) = ((1, 0x10000), 4)) ∧
    (let t := after { State.reset with pc := 4, z := true } 0x200010D; (fault t, t.pc) = ((0, 0), 5)) ∧
    (let t := after { State.reset with pc := 4 } (-512 + 0x10D); (fault t, t.pc) = ((1, -1), 4)) ∧
    (let t := after { State.reset with pc := 4, rs := 7 } 0x200013D; (fault t, t.rs, t.pc) = ((1, 0x10000), 7, 4)) := by decide

/-- Rows W1 to W5. -/
theorem test_finite_width :
    (let t := after (withABX 65535 1 0) 0x81 narrow; (fault t, t.b, t.pc) = ((3, 65536), 1, 0)) ∧
    (let t := after (withABX 65534 1 0) 0x81 narrow; (t.b, t.pc) = (65535, 1)) ∧
    fault (after (withABX (-65536) 0 0) 0xA1 narrow) = (3, -65537) ∧
    (after (withABX 65535 0 0) 0xB1 narrow).a = -65536 ∧
    fault (after (withABX 0 0 65535) 0xC1 narrow) = (3, 65536) := by decide

/-- Row X11: no step exists, and its reason is named. -/
theorem test_stopped_states :
    (step { State.reset with h := true } = .fault .halted) ∧ (step { State.reset with pc := 0x10000 } = .fault .endOfMemory) ∧
    (step { State.reset with fc := .notData, h := true } = .fault .faulted) := ⟨rfl, rfl, rfl⟩

/-- The first instruction after reset, on the machine itself (SUBI_ALIAS and VW uninterpreted): the step answers a next state. -/
theorem test_first_step_after_reset (v : Int) :
    step (State.reset.withFetchWord 16 0x004B) = exec (.subaImm 0) (State.reset.withFetchWord 16 0x004B) ∧
    (∃ t, exec (.subaImm v) State.reset = .next t) := ⟨rfl, ⟨_, rfl⟩⟩

/-! ### The assembler (section 2.8) -/

/-- The words of an assembled text. -/
def words (text : String) : Except AsmError (List Int) := (assemble text.toList).map (List.map Cell.word)

/-- Rows A1, A2. -/
theorem test_assembler_operands :
    words "lda 0x05" = .ok [0xA0B, 0] ∧ words "lda #0x05" = .ok [0xA0B, 0] ∧ words "lda [0x0010]" = .ok [0x200D, 0] ∧
    words "lda [X+0x0010]" = .ok [0x200F, 0] ∧ words "lda [x+0x0010]" = .ok [0x200F, 0] := by decide

/-- Rows A3 to A6, A9. -/
theorem test_assembler_labels :
    words "top:\ninca\njmp [top]" = .ok [0x91, 0x105, 0] ∧ words "jmp [end]\nhlt\nend:" = .ok [0x705, 0, 0xD9] ∧
    words "foo\nhlt" = .ok [0, 0xD9] ∧ words "a:\nhlt\na:\nhlt\njmp [a]" = .ok [0xD9, 0xD9, 0x305, 0] ∧
    words "  ; a comment line\nhlt" = .ok [0xD9] := by decide

/-- Rows A7, A8. -/
theorem test_assembler_refuses :
    words "jmp [nowhere]" = .error (.unresolvedLabel "nowhere".toList) ∧ words "add #0x01" = .error .operandOfImplied ∧
    words "sta #0x05" = .error .modeLacking ∧ words "lda hlt" = .error .missingOperand ∧
    words "0x05" = .error .strayOperand ∧ words "lda #0x12345" = .error .badHex := by decide

/-! ### Witnesses: the hypotheses of the obligations, met together, at the boundary values of their clauses -/

/-- A Running state with a record at 2 and data at 0x80. -/
def sample : State := { State.reset with a := 5, b := 3, sp := 0x100, mem := [(2, ⟨.record, 0x6C, 0⟩), (0x80, Cell.ofValue 7)] }

/-- Every value between the bounds of 17 bits fits the machine's VW, whatever it is. -/
theorem fits_small {v : Int} (h₁ : -65536 ≤ v) (h₂ : v ≤ 65535) : Fits v := fits_of_17 Config.chip h₁ h₂

theorem witness_RecordWordRoundTrip :
    17 ≤ 17 ∧ (Instr.jne (-1)).wellFormed (.bits 17 (by decide)) = true ∧
    (Instr.ldaImm 65535).wellFormed (.bits 17 (by decide)) = true := by decide

theorem witness_CellNumberAndBitsAreFaithful :
    (ValueWidth.bits 17 (by decide)).fits (Cell.ofValue (-65536)).val = true ∧
    (ValueWidth.bits 17 (by decide)).fits (Cell.ofValue 65535).val = true := by decide

theorem witness_DecodedInstructionDeterminesOpcode :
    decode ⟨.record, 0x40, 99⟩ = .ok .add ∧ decode ⟨.record, 0x06, 0x80⟩ = .ok (.ldaDir 0x80) := by decide

theorem witness_OpcodeMapIsTheTable :
    ∀ r ∈ opcodeMap, r.op ≠ 0xA1 ∧ r.op ≠ 0x04 := by decide

theorem witness_FormatNIgnoresVal :
    (∃ r ∈ opcodeMap, r.format = .implied) ∧ Instr.add.operand = none := by decide

theorem witness_DataAndUnassignedCellsAreNoOps :
    State.reset.runState = .running ∧ (fetch State.reset).kind = .data ∧
    (let s := loadCell State.reset 0 ⟨.record, 0xA1, 0⟩; s.runState = .running ∧ (fetch s).kind = .record ∧
      ∀ r ∈ opcodeMap, r.op ≠ (fetch s).op) := by decide

/-- AddAndSubWriteB, IncrementsAndDecrementsAreExact, InvertFlipsEveryBit, LoadImmediateLoadsTheLiteral,
AddWithOperandIsExact: both clauses of WritesValue. -/
theorem witness_WritesValue :
    Fits (sample.a + sample.b) ∧ Fits (sample.a - sample.b) ∧ Fits sample.a ∧ Fits sample.b ∧
    (⟨.bits 17 (by decide), .none⟩ : Config).fits (65535 + 1) = false ∧
    (⟨.bits 17 (by decide), .none⟩ : Config).fits (-65536 - 1) = false := ⟨fits_small (by decide) (by decide), fits_small (by decide) (by decide), fits_small (by decide) (by decide), fits_small (by decide) (by decide), by decide, by decide⟩

theorem witness_HaltSetsHAndStops :
    State.reset.fc = .none := rfl

theorem witness_LoadImmediateLoadsTheLiteral :
    Fits 0 ∧ Fits 0xFFFF := ⟨fits_small (by decide) (by decide), fits_small (by decide) (by decide)⟩

/-- LoadsReadMemory, AddWithOperandIsExact, SubtractFromMemoryIsExact, AndCombinesBitwise, OrCombinesBitwise: every
clause of WritesFromSource and CombinesSource, at the ends of memory too. -/
theorem witness_WritesFromSource :
    inRange (-1) = false ∧ inRange 65536 = false ∧ HoldsRecord sample 2 ∧ Readable sample 0x80 ∧ Readable sample 0 ∧
    Readable sample 65535 ∧ Fits (contentAt sample 0x80) ∧ Fits (sample.a - contentAt sample 0x80) ∧ Fits sample.a ∧
    Readable (holding sample 0x80 65536) 0x80 ∧ narrow.fits (contentAt (holding sample 0x80 65536) 0x80) = false := 
  ⟨by decide, by decide, by decide, by decide, by decide, by decide, fits_small (by decide) (by decide), fits_small (by decide) (by decide), fits_small (by decide) (by decide),
   by decide, by decide⟩

theorem witness_SubtractImmediateFollowsAlias :
    (⟨.unbounded, .subaAsSubb⟩ : Config).subiAlias = .subaAsSubb ∧ Config.reference.subiAlias ≠ .subaAsSubb ∧
    (⟨.unbounded, .subbAsSuba⟩ : Config).subiAlias = .subbAsSuba ∧ Config.reference.subiAlias ≠ .subbAsSuba ∧
    Fits (sample.a - 1) ∧ Fits (sample.b - 1) := ⟨rfl, by decide, rfl, by decide, fits_small (by decide) (by decide), fits_small (by decide) (by decide)⟩

/-- StoresWriteOneDataCell. -/
theorem witness_Stores :
    inRange (-1) = false ∧ inRange 65536 = false ∧ inRange 0 = true ∧ inRange 65535 = true ∧ Fits sample.a ∧ Fits sample.b ∧
    narrow.fits (withABX 65536 (-65537) 0).a = false ∧ narrow.fits (withABX 65536 (-65537) 0).b = false := 
  ⟨by decide, by decide, by decide, by decide, fits_small (by decide) (by decide), fits_small (by decide) (by decide), by decide, by decide⟩

theorem witness_StoreIsSeenByTheNextFetch :
    (Instr.stbIdx 65535).targetAddress State.reset = some 65535 ∧ (Instr.stbIdx 65535).storedValue State.reset = some 0 ∧
    (Instr.pshDir 0x80).targetAddress (withSP sample 1) = some 0 ∧ (Instr.pshDir 0x80).storedValue (withSP sample 1) = some 7 ∧
    (∀ b, (Instr.pshDir 0x80).sourceAddress (withSP sample 1) = some b → Readable (withSP sample 1) b) ∧
    inRange 0 = true ∧ inRange 65535 = true ∧ Fits 0 ∧ Fits 7 ∧
    ∃ t, exec (.staDir 0) State.reset = .next t ∧ ∃ u : State, u.mem = t.mem ∧ u.pc = (0 : Int).toNat ∧ u.runState = .running := 
  ⟨rfl, rfl, rfl, rfl, fun b h => by cases h; decide, rfl, rfl, fits_small (by decide) (by decide), fits_small (by decide) (by decide),
   _, rfl, { State.reset with mem := _ }, rfl, rfl, rfl⟩

theorem witness_PushesStoreBelowSP :
    inRange (State.reset.sp - 1) = false ∧ inRange (sample.sp - 1) = true ∧ inRange ((withSP sample 65536).sp - 1) = true ∧
    inRange ((withSP sample 65537).sp - 1) = false ∧ Fits sample.a ∧ Readable State.reset 0 ∧ Readable sample 0x80 ∧
    HoldsRecord sample 2 ∧ Fits (contentAt sample 0x80) ∧ narrow.fits (withABX 65536 0 0).a = false ∧
    Readable (holding sample 0x80 65536) 0x80 ∧ narrow.fits (contentAt (holding sample 0x80 65536) 0x80) = false := 
  ⟨by decide, by decide, by decide, by decide, fits_small (by decide) (by decide), by decide, by decide, by decide,
   fits_small (by decide) (by decide), by decide, by decide, by decide⟩

theorem witness_PopsLoadAndIncrementSP :
    inRange (withSP sample 65536).sp = false ∧ HoldsRecord (withSP sample 2) (withSP sample 2).sp ∧
    Readable sample sample.sp ∧ Fits (contentAt sample sample.sp) ∧ Fits (sample.sp + 1) ∧
    (let s := withSP (holding sample 0x80 65536) 0x80; Readable s s.sp ∧ narrow.fits (contentAt s s.sp) = false ∧
      narrow.fits (s.sp + 1) = true) ∧
    (let s := withSP sample 65535; Readable s s.sp ∧ narrow.fits (contentAt s s.sp) = true ∧ narrow.fits (s.sp + 1) = false) := 
  ⟨by decide, by decide, by decide, fits_small (by decide) (by decide), fits_small (by decide) (by decide), by decide, by decide⟩

theorem witness_PopChecksPoppedValueBeforeSP :
    let s := withSP (holding sample 65535 65536) 65535
    Readable s s.sp ∧ narrow.fits (contentAt s s.sp) = false ∧ narrow.fits (s.sp + 1) = false := by decide

theorem witness_PushThenPopRestores :
    1 ≤ sample.sp ∧ sample.sp ≤ memSize ∧ Fits sample.a ∧ Fits sample.sp := ⟨by decide, by decide, fits_small (by decide) (by decide), fits_small (by decide) (by decide)⟩

theorem witness_StackPointerStaysInRange :
    (∃ t, exec (.ldsImm 65535) sample = .next t) ∧ 0 ≤ sample.sp ∧ sample.sp ≤ memSize ∧
    ∀ v, Instr.ldsImm 65535 = .ldsImm v → 0 ≤ v ∧ v ≤ memSize := 
  ⟨⟨_, rfl⟩, by decide, by decide, fun v h => by cases h; decide⟩

/-- JumpCallAndReturn, ConditionalJumpsTestStickyFlags, NestedCallLosesOuterReturn. -/
theorem witness_transfers :
    inRange 0 = true ∧ inRange 65535 = true ∧ inRange (-1) = false ∧ inRange 65536 = false ∧ State.reset.z = false ∧
    (withFlags true true true).z = true ∧ (withFlags true true true).g = true ∧ (withFlags true true true).l = true := by decide

theorem witness_StepRunsDecodedInstruction :
    (loadCell State.reset 0 ⟨.record, 0x40, 0⟩).runState = .running ∧
    decode (Memory.read (loadCell State.reset 0 ⟨.record, 0x40, 0⟩).mem 0) = .ok .add := by decide

theorem witness_PlacedInstructionRunsNext :
    State.reset.runState = .running ∧ decodeTableWord 16 0x0D9 = some .hlt := by decide

theorem witness_StopsExactlyWhenNotRunning :
    (State.reset.raise (.notData 0)).fc ≠ .none ∧ (State.reset.fc = .none ∧ ({ State.reset with h := true } : State).h = true) ∧
    (State.reset.h = false ∧ memSize ≤ ({ State.reset with pc := 65536 } : State).pc) ∧
    ({ State.reset with pc := 65535 } : State).pc < memSize := by decide

theorem witness_StepKeepsInvariant :
    sample.Inv ∧ ∃ t, step sample = .next t := 
  ⟨⟨by decide, by decide, by decide, fun a => by
    simp only [sample, Memory.read, Cell.empty]
    split
    · intro h; cases h
    · split <;> intro _ <;> rfl⟩, ⟨_, rfl⟩⟩

theorem witness_StepKeepsValuesRepresentable :
    State.reset.Representable narrow ∧ ∃ t, stepIn narrow State.reset = .next t := 
  ⟨⟨by decide, by decide, by decide, by decide, fun _ => (by decide : narrow.fits 0 = true)⟩, ⟨_, rfl⟩⟩

theorem witness_ConfiguredMachineIsTheMachine :
    (∀ v, Instr.add ≠ .subaImm v) ∧ (∀ v, Instr.add ≠ .subbImm v) := ⟨by simp, by simp⟩

theorem witness_SourceReadFaultsComeFirst :
    (Instr.ldaIdx 0x10000).sourceAddress sample = some 0x10000 ∧ inRange 0x10000 = false ∧
    (Instr.pshDir 2).sourceAddress sample = some 2 ∧ HoldsRecord sample 2 := by decide

theorem witness_WriteAddressFaultsComeSecond :
    Instr.psha.targetAddress State.reset = some (-1) ∧ (∀ b, Instr.psha.sourceAddress State.reset = some b → Readable State.reset b) ∧
    (Instr.pshDir 0).targetAddress State.reset = some (-1) ∧
    (∀ b, (Instr.pshDir 0).sourceAddress State.reset = some b → Readable State.reset b) ∧ inRange (-1) = false := 
  ⟨rfl, fun b h => by simp [Instr.sourceAddress] at h, rfl,
   fun b h => by simp [Instr.sourceAddress] at h; subst h; decide, by decide⟩

theorem witness_FaultsArePrecise :
    State.reset.fc = .none ∧ exec (.jmp (-1)) State.reset = .next (State.reset.raise (.addressOutOfRange (-1))) ∧
    (State.reset.raise (.addressOutOfRange (-1))).fc ≠ .none := ⟨rfl, rfl, by decide⟩

theorem witness_FlagsAndFaultStickAlongRuns :
    (∃ t, steps 1 (withFlags true true true) = .next t) ∧ (withFlags true true true).z = true ∧ (withFlags true true true).g = true ∧
    (withFlags true true true).l = true ∧
    (let s := ({ State.reset with h := true } : State).raise (.notData 0); steps 0 s = .next s ∧ s.h = true ∧ s.fc ≠ .none) := 
  ⟨⟨_, rfl⟩, rfl, rfl, rfl, rfl, rfl, by decide⟩

theorem witness_RecordsOnlyDisappear :
    (∃ t, step sample = .next t ∧ (Memory.read t.mem 2).kind = .record) := ⟨_, rfl, rfl⟩

theorem witness_OnlyTheTargetCellIsWritten :
    Instr.add.targetAddress sample = none ∧ (Instr.staDir 65535).targetAddress sample = some 65535 ∧ sample.fc = .none ∧
    (∃ t, exec .cmp sample = .next t) ∧ (∃ t, exec (.staDir 65536) sample = .next t ∧ t.fc ≠ .none) := 
  ⟨rfl, rfl, rfl, ⟨_, rfl⟩, ⟨_, rfl, by decide⟩⟩

theorem witness_EachRegisterHasItsWriters :
    (∃ t, exec .rfs sample = .next t) ∧ Instr.rfs ≠ .cmp ∧ Instr.rfs ≠ .hlt ∧ (∀ n, Instr.rfs ≠ .jsr n) ∧
    Instr.rfs.writesX = false ∧ Instr.rfs.writesSP = false ∧ Instr.rfs.writesA Config.chip.subiAlias = false ∧
    Instr.rfs.writesB Config.chip.subiAlias = false := 
  ⟨⟨_, rfl⟩, by decide, by decide, by simp, rfl, rfl, rfl, rfl⟩

theorem witness_PcAdvancesUnlessTransfer :
    Instr.cmp.transfers = false ∧ sample.fc = .none ∧ (∃ t, exec .cmp sample = .next t ∧ t.fc = .none) ∧
    (Instr.staDir 65536).transfers = false ∧ ∃ t, exec (.staDir 65536) sample = .next t ∧ t.fc ≠ .none := 
  ⟨rfl, rfl, ⟨_, rfl, rfl⟩, rfl, ⟨_, rfl, by decide⟩⟩

theorem witness_DataCellsWalkToEndOfMemory :
    State.reset.fc = .none ∧ State.reset.h = false ∧ State.reset.pc ≤ memSize ∧
    (∀ a, State.reset.pc ≤ a → a < memSize → (Memory.read State.reset.mem a).kind = .data) ∧ State.reset.pc + 65536 ≤ memSize := 
  ⟨rfl, rfl, by decide, fun _ _ _ => rfl, by decide⟩

theorem witness_HostMovesKeepTheirPhases :
    (hostReset ⟨.started, sample⟩).phase = .loading ∧ (⟨.started, sample⟩ : Session).phase = .started ∧ inRange 65535 = true ∧
    Fits (⟨.record, 0x6C, 0⟩ : Cell).val ∧ sample.runState = .running ∧ ({ sample with h := true } : State).runState ≠ .running := 
  ⟨rfl, rfl, by decide, fits_small (by decide) (by decide), by decide, by decide⟩

theorem witness_AssembledImageHasRuleR61Layout :
    assembleTokens [['j', 'm', 'p'], ['[', 'e', ']'], ['f', 'o', 'o'], ['l', 'd', 'a'],
      ['[', 'X', '+', '0', 'x', 'f', 'f', 'f', 'f', ']'], ['e', ':']] =
      .ok [⟨.record, 0x82, 5⟩, Cell.empty, Cell.empty, ⟨.record, 0x07, 0xFFFF⟩, Cell.empty] := by decide

/-- Rows A7, A8: one refused stream for each error but the two that need a full memory. For badHex both its cases, R58's
and last the model's own (log entry 8). -/
theorem witness_AssemblerRefusesOnlyForANamedCause :
    assembleTokens [['j', 'm', 'p'], ['[', 'e', ']']] = .error (.unresolvedLabel ['e']) ∧
    assembleTokens [['f', 'o', 'o'], ['0', 'x', '5']] = .error .strayOperand ∧
    assembleTokens [['a', 'd', 'd'], ['0', 'x', '5']] = .error .operandOfImplied ∧
    assembleTokens [['s', 't', 'a'], ['0', 'x', '5']] = .error .modeLacking ∧
    assembleTokens [['l', 'd', 'a'], ['h', 'l', 't']] = .error .missingOperand ∧
    assembleTokens [['l', 'd', 'a'], ['0', 'x']] = .error .badHex ∧
    assembleTokens [['l', 'd', 'a'], ['[', '0', 'x', '1', 'g', ']']] = .error .badHex ∧
    assembleTokens [['l', 'd', 'a'], ['[', 'X', '+', '0', 'x', '1', '2', '3', '4', '5', ']']] = .error .badHex ∧
    assembleTokens [['l', 'd', 'a'], ['[', 'X', '+', 'e', ']']] = .error .badHex := by decide

/-- A text of `n` inert tokens and one label at its end: the label's index is `n` (R55). -/
theorem labelPass_inert (n i : Nat) (tb : SymbolTable) :
    labelPass (List.replicate n ['x'] ++ [['e', ':']]) i tb = (List.replicate n ['x'], (['e'], i + n) :: tb) := by
  induction n generalizing i with
  | zero => rfl
  | succ n ih =>
    have h : labelPass (['x'] :: (List.replicate n ['x'] ++ [['e', ':']])) i tb =
        (['x'] :: (labelPass (List.replicate n ['x'] ++ [['e', ':']]) (i + 1) tb).1,
          (labelPass (List.replicate n ['x'] ++ [['e', ':']]) (i + 1) tb).2) := rfl
    rw [List.replicate_succ, List.cons_append, h, ih, Nat.add_right_comm, Nat.add_assoc]

/-- A text that fills memory, its first operand a reference to the label at its very end (log entry 8). -/
theorem labelPastEnd_of_full (n : Nat) (hn : n + 2 = memSize) :
    assembleTokens (['j', 'm', 'p'] :: ['[', 'e', ']'] :: (List.replicate n ['x'] ++ [['e', ':']])) = .error (.labelPastEnd ['e']) := by
  have h : labelPass (['j', 'm', 'p'] :: ['[', 'e', ']'] :: (List.replicate n ['x'] ++ [['e', ':']])) 0 [] =
      (['j', 'm', 'p'] :: ['[', 'e', ']'] :: List.replicate n ['x'], [(['e'], memSize)]) := by
    have e : labelPass (['j', 'm', 'p'] :: ['[', 'e', ']'] :: (List.replicate n ['x'] ++ [['e', ':']])) 0 [] =
        (['j', 'm', 'p'] :: ['[', 'e', ']'] :: (labelPass (List.replicate n ['x'] ++ [['e', ':']]) 2 []).1,
          (labelPass (List.replicate n ['x'] ++ [['e', ':']]) 2 []).2) := rfl
    rw [e, labelPass_inert, Nat.add_comm 2 n, hn]
  rw [assembleTokens, h]
  have hl : ¬ memSize < (['j', 'm', 'p'] :: ['[', 'e', ']'] :: List.replicate n ['x']).length := by
    rw [List.length_cons, List.length_cons, List.length_replicate]; omega
  rw [if_neg hl]
  rfl

theorem witness_labelPastEnd : ∃ tokens, assembleTokens tokens = .error (.labelPastEnd ['e']) :=
  ⟨_, labelPastEnd_of_full 65534 rfl⟩

/-- One token more than memory holds. -/
theorem tooLong_of_more (n : Nat) (hn : n = memSize + 1) : assembleTokens (List.replicate n ['x']) = .error .tooLong := by
  have h : (emitted (List.replicate n ['x'])).length = n := by
    rw [emitted, List.filter_replicate_of_pos rfl, List.length_replicate]
  rw [assembleTokens, labelPass_emitted, if_pos (by omega)]

theorem witness_tooLong : ∃ tokens, assembleTokens tokens = .error .tooLong := ⟨_, tooLong_of_more 65537 rfl⟩

end Sys2Proof.Tests
end

section
/-! SUPPORT. The two parameters the spec does not fix (spec/00_scope.md R4): what a finite `VW` can change in an instruction's
result, and that `execIn` and `stepIn` are `exec` and `step` at the machine's own parameters. -/

namespace Sys2Proof.Machine

/-! ### A computation under a finite `VW` against the same one under the reference `VW` -/

/-- The computation `e` answers what `ref` answers, or it stops with `ValueRange` of a value that `VW` cannot hold (R183). -/
def AgreesOrStops {α : Type} (cfg : Config) (e ref : Except Raise α) : Prop :=
  e = ref ∨ ∃ v, cfg.fits v = false ∧ e = .error (.valueRange v)

namespace AgreesOrStops

variable {α β : Type} {cfg : Config}

theorem refl (e : Except Raise α) : AgreesOrStops cfg e e := .inl rfl

/-- Computations done one after the other agree or stop where their parts do. -/
theorem bind {e ref : Except Raise α} {f fRef : α → Except Raise β} (h : AgreesOrStops cfg e ref)
    (hf : ∀ x, AgreesOrStops cfg (f x) (fRef x)) : AgreesOrStops cfg (e >>= f) (ref >>= fRef) := by
  obtain rfl | ⟨v, hv, rfl⟩ := h
  · cases e with
    | ok x => exact hf x
    | error r => exact .refl _
  · exact .inr ⟨v, hv, rfl⟩

/-- The value check is the one place where the width matters: the reference `VW` passes every value. -/
theorem checkValue (al : SubiAlias) (v : Int) :
    AgreesOrStops cfg (checkValue cfg v) (checkValue ⟨.unbounded, al⟩ v) := by
  cases hv : cfg.fits v with
  | true => exact .inl (by rw [checkValue_eq, if_pos hv]; rfl)
  | false => exact .inr ⟨v, hv, by rw [checkValue_eq, hv]; rfl⟩

theorem writeReg (al : SubiAlias) (r : Reg) (v : Int) (s : State) :
    AgreesOrStops cfg (writeReg cfg r v s) (writeReg ⟨.unbounded, al⟩ r v s) :=
  .bind (.checkValue al v) fun _ => .refl _

theorem updateReg (al : SubiAlias) (r : Reg) (f : Int → Int) (s : State) :
    AgreesOrStops cfg (updateReg cfg r f s) (updateReg ⟨.unbounded, al⟩ r f s) :=
  .writeReg al r _ s

theorem loadReg (al : SubiAlias) (r : Reg) (source : Except Raise Int) (s : State) :
    AgreesOrStops cfg (loadReg cfg r source s) (loadReg ⟨.unbounded, al⟩ r source s) :=
  .bind (.refl source) fun v => .writeReg al r v s

theorem accumulate (al : SubiAlias) (r : Reg) (f : Int → Int → Int) (source : Except Raise Int) (s : State) :
    AgreesOrStops cfg (accumulate cfg r f source s) (accumulate ⟨.unbounded, al⟩ r f source s) :=
  .bind (.refl source) fun _ => .writeReg al r _ s

theorem memWrite (al : SubiAlias) (a v : Int) (s : State) :
    AgreesOrStops cfg (memWrite cfg a v s) (memWrite ⟨.unbounded, al⟩ a v s) :=
  .bind (.refl _) fun _ => .bind (.checkValue al v) fun _ => .refl _

theorem push (al : SubiAlias) (source : Except Raise Int) (s : State) :
    AgreesOrStops cfg (push cfg source s) (push ⟨.unbounded, al⟩ source s) :=
  .bind (.refl source) fun v => .bind (.refl _) fun _ => .bind (.writeReg al .sp _ s) fun t => .memWrite al t.sp v t

theorem pop (al : SubiAlias) (r : Reg) (s : State) :
    AgreesOrStops cfg (pop cfg r s) (pop ⟨.unbounded, al⟩ r s) :=
  .bind (.refl _) fun v => .bind (.writeReg al r v s) fun t => .writeReg al .sp _ t

/-- At the end of an instruction the stop is the recorded fault on the state before it (R75, R186). -/
theorem finish {e ref : Except Raise State} (h : AgreesOrStops cfg e ref) (s : State) :
    finish s e = finish s ref ∨ ∃ v, cfg.fits v = false ∧ finish s e = .next (s.raise (.valueRange v)) := by
  obtain rfl | ⟨v, hv, rfl⟩ := h
  · exact .inl rfl
  · exact .inr ⟨v, hv, finish_error s _⟩

end AgreesOrStops

/-- Settles O36: the instructions grouped by the shared operation they end in; `cmp`, `hlt` and the control transfers check no
value, so the width does not reach them. -/
theorem finiteWidthAgreesOrStops : Obligations.FiniteWidthAgreesOrStops := by
  unfold Obligations.FiniteWidthAgreesOrStops
  intro cfg i s
  cases i with
  | ldaImm | ldaDir | ldaIdx | ldbImm | ldbDir | ldbIdx | ldxImm | ldsImm =>
    exact (AgreesOrStops.loadReg cfg.subiAlias _ _ s).finish s
  | staDir | staIdx | stbDir | stbIdx => exact (AgreesOrStops.memWrite cfg.subiAlias _ _ s).finish s
  | addaImm | addaDir | addaIdx | addbImm | addbDir | addbIdx | subaImm | subaDir | subaIdx | subbImm | subbDir | subbIdx
  | andaImm | andaDir | andaIdx | andbImm | andbDir | andbIdx | oraImm | oraDir | oraIdx | orbImm | orbDir | orbIdx =>
    exact (AgreesOrStops.accumulate cfg.subiAlias _ _ _ s).finish s
  | add | sub => exact (AgreesOrStops.writeReg cfg.subiAlias _ _ s).finish s
  | inca | incb | deca | decb | inva | invb | incx | decx =>
    exact (AgreesOrStops.updateReg cfg.subiAlias _ _ s).finish s
  | pshImm | pshDir | pshIdx | psha | pshb => exact (AgreesOrStops.push cfg.subiAlias _ s).finish s
  | popa | popb => exact (AgreesOrStops.pop cfg.subiAlias _ s).finish s
  | cmp | hlt | jmp | jne | jeq | jgt | jlt | jge | jle | jsr | rfs => exact .inl rfl

/-! ### The machine at its own parameters -/

/-- Every meaning's parameter argument has the machine's own parameters as its default. -/
theorem execIn_chip (i : Instr) (s : State) : execIn Config.chip i s = exec i s := by
  cases i <;> rfl

theorem stepIn_chip (s : State) : stepIn Config.chip s = step s := by
  have hexec : execIn Config.chip = exec := funext fun i => funext (execIn_chip i)
  rw [stepIn, step, hexec]

/-- An instruction looks at `SUBI_ALIAS` only to pick the accumulator of a subtract immediate (R126, R129); every value check
looks at `VW` alone. -/
theorem execIn_subiAlias_irrelevant (w : ValueWidth) (al bl : SubiAlias) (i : Instr) (s : State)
    (hsuba : ∀ v, i ≠ .subaImm v) (hsubb : ∀ v, i ≠ .subbImm v) : execIn ⟨w, al⟩ i s = execIn ⟨w, bl⟩ i s := by
  cases i with
  | subaImm v => exact absurd rfl (hsuba v)
  | subbImm v => exact absurd rfl (hsubb v)
  | _ => rfl

/-- Settles O37. -/
theorem configuredMachineIsTheMachine : Obligations.ConfiguredMachineIsTheMachine :=
  ⟨execIn_chip, stepIn_chip, execIn_subiAlias_irrelevant⟩

end Sys2Proof.Machine
end

section
/-! SUPPORT. What an instruction and a step can do to the state, said once: the kinds of effect of spec/10_state.md R10 with
the conditions under which the rules of each kind reach them. The invariants and frames of the state are read off from it. -/

namespace Sys2Proof

/-- The writers of each value register (R10, table), as one function of the register. -/
def Instr.writes (al : SubiAlias) (i : Instr) : Machine.Reg → Bool
  | .a => i.writesA al
  | .b => i.writesB al
  | .x => i.writesX
  | .sp => i.writesSP

namespace Machine

/-! ### What each shared operation needs to complete -/

theorem memRead_ok {s : State} {a v : Int} (h : memRead s a = .ok v) : inRange a = true ∧ v = contentAt s a := by
  rw [memRead_eq] at h
  split_ifs at h with ha hk
  cases h
  exact ⟨ha, rfl⟩

theorem memWrite_ok {cfg : Config} {a v : Int} {s t : State} (h : memWrite cfg a v s = .ok t) :
    inRange a = true ∧ cfg.fits v = true ∧ t = { s with mem := Memory.write s.mem a.toNat (Cell.ofValue v) } := by
  rw [memWrite_eq] at h
  split_ifs at h with ha hv
  cases h
  exact ⟨ha, hv, rfl⟩

theorem writeReg_ok {cfg : Config} {r : Reg} {v : Int} {s t : State} (h : writeReg cfg r v s = .ok t) :
    cfg.fits v = true ∧ t = s.setReg r v := by
  rw [writeReg_eq] at h
  split_ifs at h with hv
  cases h
  exact ⟨hv, rfl⟩

theorem push_ok_inv {cfg : Config} {source : Except Raise Int} {s t : State} (h : push cfg source s = .ok t) :
    ∃ v, source = .ok v ∧ inRange (s.sp - 1) = true ∧ cfg.fits v = true ∧
      t = { s with sp := s.sp - 1, mem := Memory.write s.mem (s.sp - 1).toNat (Cell.ofValue v) } := by
  cases source with
  | error r => cases h
  | ok v =>
    rw [push_ok] at h
    split_ifs at h with ha hv
    cases h
    exact ⟨v, rfl, ha, hv, rfl⟩

/-- A pop into a register other than SP. -/
theorem pop_ok {cfg : Config} {r : Reg} {s t : State} (hr : r ≠ .sp) (h : pop cfg r s = .ok t) :
    inRange s.sp = true ∧ cfg.fits (contentAt s s.sp) = true ∧ cfg.fits (s.sp + 1) = true ∧
      t = (s.setReg r (contentAt s s.sp)).setReg .sp (s.sp + 1) := by
  have hsp (v : Int) : (s.setReg r v).sp = s.sp := s.reg_setReg_of_ne v (Ne.symm hr)
  rw [pop_eq] at h
  cases hread : memRead s s.sp with
  | error e => rw [hread] at h; cases h
  | ok v =>
    obtain ⟨ha, rfl⟩ := memRead_ok hread
    simp only [hread, hsp] at h
    split_ifs at h with hv hs
    cases h
    exact ⟨ha, hv, hs, rfl⟩

/-! ### The kinds of effect -/

/-- The states an instruction can answer, by kind of effect, each with what the rules of that kind demand (R10, R75). -/
inductive Effect (cfg : Config) (i : Instr) (s : State) : State → Prop where
  /-- A raised fault: no assignment happens (R75, R186). -/
  | fault (r : Raise) : Effect cfg i s (s.raise r)
  /-- A write of one value register; the only one of SP is lds (R107). -/
  | written (r : Reg) (v : Int) (writes : i.writes cfg.subiAlias r = true) (lds : r = .sp → i = .ldsImm v)
      (fits : cfg.fits v = true) : Effect cfg i s (s.setReg r v).advance
  /-- A store (R108 to R111). -/
  | stored (a v : Int) (target : i.targetAddress s = some a) (value : i.storedValue s = some v) (legal : inRange a = true)
      (fits : cfg.fits v = true) :
      Effect cfg i s { s with mem := Memory.write s.mem a.toNat (Cell.ofValue v) }.advance
  /-- A push (R150 to R154). -/
  | pushed (v : Int) (writes : i.writes cfg.subiAlias .sp = true) (target : i.targetAddress s = some (s.sp - 1))
      (value : i.storedValue s = some v) (legal : inRange (s.sp - 1) = true) (fits : cfg.fits v = true) :
      Effect cfg i s
        { s with sp := s.sp - 1, mem := Memory.write s.mem (s.sp - 1).toNat (Cell.ofValue v) }.advance
  /-- A pop into A or B (R155, R156). -/
  | popped (r : Reg) (notSp : r ≠ .sp) (writes : i.writes cfg.subiAlias r = true)
      (writesSp : i.writes cfg.subiAlias .sp = true) (legal : inRange s.sp = true)
      (fits : cfg.fits (contentAt s s.sp) = true) (fitsSp : cfg.fits (s.sp + 1) = true) :
      Effect cfg i s ((s.setReg r (contentAt s s.sp)).setReg .sp (s.sp + 1)).advance
  /-- `cmp` (R90). -/
  | compared (isCmp : i = .cmp) : Effect cfg i s (compareFlags s).advance
  /-- `hlt` (R91). -/
  | halted (isHlt : i = .hlt) : Effect cfg i s { s with h := true }.advance
  /-- A conditional jump whose test fails (R161 to R166). -/
  | untaken (transfers : i.transfers = true) : Effect cfg i s s.advance
  /-- A taken jump (R160 to R166). -/
  | jumped (target : Int) (transfers : i.transfers = true) (legal : inRange target = true) :
      Effect cfg i s { s with pc := target.toNat }
  /-- `jsr` (R167). -/
  | called (target : Int) (isJsr : i = .jsr target) (legal : inRange target = true) :
      Effect cfg i s { s with rs := s.pc + 1, pc := target.toNat }
  /-- `rfs` (R168). -/
  | returned (isRfs : i = .rfs) : Effect cfg i s { s with pc := s.rs }

/-! ### Every instruction's answer is one of them -/

namespace Effect

variable {cfg : Config} {i : Instr} {s t : State}

theorem of_settle {e : Except Raise State} (hok : ∀ u, e = .ok u → Effect cfg i s u) (h : settle s e = .next t) :
    Effect cfg i s t := by
  obtain hu | ⟨r, -, rfl⟩ := settle_cases h
  · exact hok t hu
  · exact .fault r

theorem of_finish {e : Except Raise State} (hok : ∀ u, e = .ok u → Effect cfg i s u.advance) (h : finish s e = .next t) :
    Effect cfg i s t := by
  obtain ⟨u, hu, rfl⟩ | ⟨r, -, rfl⟩ := finish_cases h
  · exact hok u hu
  · exact .fault r

theorem of_writeReg {r : Reg} {v : Int} (writes : i.writes cfg.subiAlias r = true) (lds : r = .sp → i = .ldsImm v)
    (h : finish s (writeReg cfg r v s) = .next t) : Effect cfg i s t := by
  refine of_finish (fun u hu => ?_) h
  obtain ⟨fits, rfl⟩ := writeReg_ok hu
  exact .written r v writes lds fits

theorem of_loadReg {r : Reg} {source : Except Raise Int} (writes : i.writes cfg.subiAlias r = true) (hr : r ≠ .sp)
    (h : finish s (loadReg cfg r source s) = .next t) : Effect cfg i s t := by
  cases source with
  | ok v => exact of_writeReg writes (fun e => absurd e hr) h
  | error e => cases h; exact .fault e

theorem of_accumulate {r : Reg} {f : Int → Int → Int} {source : Except Raise Int}
    (writes : i.writes cfg.subiAlias r = true) (hr : r ≠ .sp)
    (h : finish s (accumulate cfg r f source s) = .next t) : Effect cfg i s t := by
  cases source with
  | ok v => exact of_writeReg writes (fun e => absurd e hr) h
  | error e => cases h; exact .fault e

theorem of_updateReg {r : Reg} {f : Int → Int} (writes : i.writes cfg.subiAlias r = true) (hr : r ≠ .sp)
    (h : finish s (updateReg cfg r f s) = .next t) : Effect cfg i s t :=
  of_writeReg writes (fun e => absurd e hr) h

theorem of_memWrite {a v : Int} (target : i.targetAddress s = some a) (value : i.storedValue s = some v)
    (h : finish s (memWrite cfg a v s) = .next t) : Effect cfg i s t := by
  refine of_finish (fun u hu => ?_) h
  obtain ⟨legal, fits, rfl⟩ := memWrite_ok hu
  exact .stored a v target value legal fits

theorem of_push {source : Except Raise Int} (writes : i.writes cfg.subiAlias .sp = true)
    (target : i.targetAddress s = some (s.sp - 1)) (value : ∀ v, source = .ok v → i.storedValue s = some v)
    (h : finish s (push cfg source s) = .next t) : Effect cfg i s t := by
  refine of_finish (fun u hu => ?_) h
  obtain ⟨v, hv, legal, fits, rfl⟩ := push_ok_inv hu
  exact .pushed v writes target (value v hv) legal fits

theorem of_pop {r : Reg} (hr : r ≠ .sp) (writes : i.writes cfg.subiAlias r = true)
    (writesSp : i.writes cfg.subiAlias .sp = true) (h : finish s (pop cfg r s) = .next t) : Effect cfg i s t := by
  refine of_finish (fun u hu => ?_) h
  obtain ⟨legal, fits, fitsSp, rfl⟩ := pop_ok hr hu
  exact .popped r hr writes writesSp legal fits fitsSp

theorem of_jumpTo {target : Int} (transfers : i.transfers = true) (h : settle s (jumpTo target s) = .next t) :
    Effect cfg i s t := by
  refine of_settle (fun u hu => ?_) h
  rw [jumpTo_eq] at hu
  split_ifs at hu with legal
  cases hu
  exact .jumped target transfers legal

theorem of_branch {taken : Bool} {target : Int} (transfers : i.transfers = true)
    (h : settle s (branch taken target s) = .next t) : Effect cfg i s t := by
  cases taken with
  | true => exact of_jumpTo transfers h
  | false => cases h; exact .untaken transfers

theorem of_call {target : Int} (isJsr : i = .jsr target) (h : settle s (call target s) = .next t) : Effect cfg i s t := by
  refine of_settle (fun u hu => ?_) h
  rw [call_eq] at hu
  split_ifs at hu with legal
  cases hu
  exact .called target isJsr legal

end Effect

/-- The accumulator of `suba` immediate under each `SUBI_ALIAS` is one that R10 lists for it (R126). -/
theorem writes_subaImmTarget (cfg : Config) (v : Int) :
    (Instr.subaImm v).writes cfg.subiAlias (subaImmTarget cfg) = true ∧ subaImmTarget cfg ≠ .sp := by
  unfold subaImmTarget
  cases cfg.subiAlias <;> exact ⟨rfl, by decide⟩

/-- The accumulator of `subb` immediate under each `SUBI_ALIAS` is one that R10 lists for it (R129). -/
theorem writes_subbImmTarget (cfg : Config) (v : Int) :
    (Instr.subbImm v).writes cfg.subiAlias (subbImmTarget cfg) = true ∧ subbImmTarget cfg ≠ .sp := by
  unfold subbImmTarget
  cases cfg.subiAlias <;> exact ⟨rfl, by decide⟩

/-- Everything an instruction can do, under every `VW` and `SUBI_ALIAS`. -/
theorem effect_of_execIn {cfg : Config} {i : Instr} {s t : State} (h : execIn cfg i s = .next t) : Effect cfg i s t := by
  cases i with
  | ldaImm | ldaDir | ldaIdx | ldbImm | ldbDir | ldbIdx | ldxImm => exact .of_loadReg rfl (by decide) h
  | ldsImm v => exact .of_writeReg (r := .sp) rfl (fun _ => rfl) h
  | staDir | staIdx | stbDir | stbIdx => exact .of_memWrite rfl rfl h
  | subaImm v => exact .of_accumulate (writes_subaImmTarget cfg v).1 (writes_subaImmTarget cfg v).2 h
  | subbImm v => exact .of_accumulate (writes_subbImmTarget cfg v).1 (writes_subbImmTarget cfg v).2 h
  | addaImm | addaDir | addaIdx | addbImm | addbDir | addbIdx | subaDir | subaIdx | subbDir | subbIdx
  | andaImm | andaDir | andaIdx | andbImm | andbDir | andbIdx | oraImm | oraDir | oraIdx | orbImm | orbDir | orbIdx =>
    exact .of_accumulate rfl (by decide) h
  | add | sub => exact .of_writeReg (r := .b) rfl nofun h
  | inca | incb | deca | decb | inva | invb | incx | decx => exact .of_updateReg rfl (by decide) h
  | psha | pshb | pshImm => exact .of_push rfl rfl (fun _ hv => by cases hv; rfl) h
  | pshDir | pshIdx => exact .of_push rfl rfl (fun _ hv => congrArg some (memRead_ok hv).2.symm) h
  | popa | popb => exact .of_pop (by decide) rfl rfl h
  | cmp => cases h; exact .compared rfl
  | hlt => cases h; exact .halted rfl
  | jmp => exact .of_jumpTo rfl h
  | jne | jeq | jgt | jlt | jge | jle => exact .of_branch rfl h
  | jsr => exact .of_call rfl h
  | rfs => cases h; exact .returned rfl

theorem effect_of_exec {i : Instr} {s t : State} (h : exec i s = .next t) : Effect Config.chip i s t :=
  effect_of_execIn ((execIn_chip i s).trans h)

/-! ### What a step can do -/

theorem runState_eq_running_iff (s : State) : s.runState = .running ↔ s.fc = .none ∧ s.h = false ∧ s.pc < memSize := by
  unfold State.runState
  split_ifs with hfc hstop
  · simp [hfc]
  · obtain hh | hpc := hstop
    · simp [hh]
    · simp [hpc]
  · simp only [not_or, Bool.not_eq_true, not_le] at hstop
    simpa using And.intro (not_not.1 hfc) hstop

/-- A step starts in a Running state, and is the no-op of R72 or the instruction that the fetched cell holds (R70). -/
theorem cycle_cases {dispatch : Instr → State → Out} {s t : State} (h : cycle dispatch s = .next t) :
    s.runState = .running ∧
      ((∃ e, decode (fetch s) = .error e ∧ t = s.advance) ∨ ∃ i, decode (fetch s) = .ok i ∧ dispatch i s = .next t) := by
  unfold cycle at h
  split at h
  · cases h
  · cases h
  · rename_i hrun
    refine ⟨hrun, ?_⟩
    split at h
    · rename_i i hi
      exact .inr ⟨i, hi, h⟩
    · rename_i e he
      cases h
      exact .inl ⟨e, he, rfl⟩

/-- Everything a step can do, under every `VW` and `SUBI_ALIAS`. -/
theorem stepIn_cases {cfg : Config} {s t : State} (h : stepIn cfg s = .next t) :
    s.runState = .running ∧
      ((∃ e, decode (fetch s) = .error e ∧ t = s.advance) ∨ ∃ i, decode (fetch s) = .ok i ∧ Effect cfg i s t) := by
  obtain ⟨hrun, ht⟩ := cycle_cases h
  exact ⟨hrun, ht.imp_right fun ⟨i, hi, hexec⟩ => ⟨i, hi, effect_of_execIn hexec⟩⟩

theorem step_cases {s t : State} (h : step s = .next t) :
    s.runState = .running ∧
      ((∃ e, decode (fetch s) = .error e ∧ t = s.advance) ∨
        ∃ i, decode (fetch s) = .ok i ∧ Effect Config.chip i s t) :=
  stepIn_cases ((stepIn_chip s).trans h)

/-- Every instruction answers a next state (R70). -/
theorem exec_next (i : Instr) (s : State) : ∃ t, exec i s = .next t := by cases i <;> exact ⟨_, rfl⟩

/-- A Running state has a step (R70). -/
theorem step_next_of_running {s : State} (h : s.runState = .running) : ∃ t, step s = .next t := by
  unfold step cycle
  rw [h]
  dsimp only
  split
  · exact exec_next _ s
  · exact ⟨_, rfl⟩

end Machine
end Sys2Proof
end

section
/-! SUPPORT. The claims about the state (spec/10_state.md), each read off from the kinds of effect. -/

namespace Sys2Proof.Machine

/-! ### Memory -/

namespace Effect

variable {cfg : Config} {i : Instr} {s t : State}

/-- Memory is left alone, or one legal address, the instruction's target, takes a data cell (R35). -/
theorem mem_cases (h : Effect cfg i s t) :
    t.mem = s.mem ∨
      ∃ a v, i.targetAddress s = some a ∧ inRange a = true ∧ t.mem = Memory.write s.mem a.toNat (Cell.ofValue v) := by
  cases h with
  | stored a v target _ legal => exact .inr ⟨a, v, target, legal, rfl⟩
  | pushed v _ target _ legal => exact .inr ⟨_, v, target, legal, rfl⟩
  | written | popped => exact .inl (by simp)
  | fault | compared | halted | untaken | jumped | called | returned => exact .inl rfl

/-- Each cell is the one before or a data cell with `OP = 0` (R35, R42). -/
theorem read_cases (h : Effect cfg i s t) (b : Nat) :
    Memory.read t.mem b = Memory.read s.mem b ∨ ∃ v, Memory.read t.mem b = Cell.ofValue v := by
  obtain hm | ⟨a, v, -, -, hm⟩ := h.mem_cases
  · exact .inl (by rw [hm])
  · rw [hm, Memory.read_write]
    split
    · exact .inr ⟨v, rfl⟩
    · exact .inl rfl

theorem mem_wf (h : Effect cfg i s t) (hs : Memory.wf s.mem) : Memory.wf t.mem := by
  obtain hm | ⟨a, v, -, legal, hm⟩ := h.mem_cases
  · rwa [hm]
  · rw [hm]
    exact Memory.wf_write _ hs (toNat_lt_of_inRange legal)

end Effect

/-- Settles O43: a cell that a step changes is a data cell after it. -/
theorem recordsOnlyDisappear : Obligations.RecordsOnlyDisappear := by
  unfold Obligations.RecordsOnlyDisappear
  intro s t b hstep hk
  obtain ⟨-, ⟨-, -, rfl⟩ | ⟨i, -, he⟩⟩ := step_cases hstep
  · rfl
  · obtain hsame | ⟨v, hdata⟩ := he.read_cases b
    · exact hsame
    · rw [hdata] at hk
      cases hk

/-! ### The invariant of R26 -/

namespace Effect

variable {cfg : Config} {i : Instr} {s t : State}

/-- From a PC inside memory every effect leaves PC and RS in `0 .. MEM_SIZE` (R14, R17). -/
theorem pc_rs_le (h : Effect cfg i s t) (hpc : s.pc < memSize) (hrs : s.rs ≤ memSize) :
    t.pc ≤ memSize ∧ t.rs ≤ memSize := by
  cases h with
  | fault => exact ⟨hpc.le, hrs⟩
  | written | popped => simpa using And.intro hpc hrs
  | stored | pushed | compared | halted | untaken => exact ⟨hpc, hrs⟩
  | jumped _ _ legal => exact ⟨(toNat_lt_of_inRange legal).le, hrs⟩
  | called _ _ legal => exact ⟨(toNat_lt_of_inRange legal).le, hpc⟩
  | returned => exact ⟨hrs, hrs⟩

end Effect

/-- Settles O34: a step starts with `PC < MEM_SIZE`, so `PC + 1` is in range as PC and as RS. -/
theorem stepKeepsInvariant : Obligations.StepKeepsInvariant := by
  unfold Obligations.StepKeepsInvariant
  intro s t ⟨_, hrs, hwf, hdata⟩ hstep
  obtain ⟨hrun, ht⟩ := step_cases hstep
  obtain ⟨-, -, hpc⟩ := (runState_eq_running_iff s).1 hrun
  obtain ⟨-, -, rfl⟩ | ⟨i, -, he⟩ := ht
  · exact ⟨hpc, hrs, hwf, hdata⟩
  · obtain ⟨hpc', hrs'⟩ := he.pc_rs_le hpc hrs
    refine ⟨hpc', hrs', he.mem_wf hwf, fun b hk => ?_⟩
    obtain hsame | ⟨v, hnew⟩ := he.read_cases b
    · rw [hsame] at hk ⊢
      exact hdata b hk
    · rw [hnew]
      rfl

/-! ### The stack pointer -/

/-- Settles O24: a pop reads at a legal SP, a push writes at a legal `SP - 1`, and no other register write is one of SP. -/
theorem stackPointerStaysInRange : Obligations.StackPointerStaysInRange := by
  unfold Obligations.StackPointerStaysInRange
  intro i s t hexec h0 h1 hlds
  have hlegal {a : Int} (h : inRange a = true) : 0 ≤ a ∧ a + 1 ≤ memSize := (inRange_iff a).1 h
  cases effect_of_exec hexec with
  | written r v _ lds =>
    cases r with
    | sp => exact hlds v (lds rfl)
    | a | b | x => exact ⟨h0, h1⟩
  | pushed _ _ _ _ legal => exact ⟨(hlegal legal).1, (sub_le_self _ zero_le_one).trans h1⟩
  | popped _ _ _ _ legal => exact ⟨Int.le_add_one h0, (hlegal legal).2⟩
  | fault | stored | compared | halted | untaken | jumped | called | returned => exact ⟨h0, h1⟩

/-! ### The program counter -/

/-- Every fault has a code other than none (R180). -/
theorem Raise.code_ne_none (r : Raise) : r.code ≠ .none := by cases r <;> simp [Raise.code]

/-- Settles O47: from a state without a fault, only the fault effect leaves one, and only transfers set PC otherwise. -/
theorem pcAdvancesUnlessTransfer : Obligations.PcAdvancesUnlessTransfer := by
  unfold Obligations.PcAdvancesUnlessTransfer
  intro i s t htr hfc hexec
  cases effect_of_exec hexec with
  | fault r => exact ⟨fun h => absurd h r.code_ne_none, fun _ => rfl⟩
  | written | popped => simp [hfc]
  | stored | pushed | compared | halted => exact ⟨fun _ => rfl, fun h => absurd hfc h⟩
  | untaken transfers | jumped _ transfers => rw [htr] at transfers; cases transfers
  | called _ isJsr => subst isJsr; cases htr
  | returned isRfs => subst isRfs; cases htr

/-! ### The writers of each register -/

@[simp] theorem State.reg_advance (s : State) (q : Reg) : s.advance.reg q = s.reg q := by cases q <;> rfl

@[simp] theorem State.reg_raise (s : State) (r : Raise) (q : Reg) : (s.raise r).reg q = s.reg q := by cases q <;> rfl

namespace Effect

variable {cfg : Config} {i : Instr} {s t : State}

/-- A value register is changed only by its writers (R10). -/
theorem reg_eq (h : Effect cfg i s t) {q : Reg} (hq : i.writes cfg.subiAlias q = false) : t.reg q = s.reg q := by
  have hne {r : Reg} (hr : i.writes cfg.subiAlias r = true) : q ≠ r := by
    rintro rfl
    rw [hq] at hr
    cases hr
  cases h with
  | fault => simp
  | written r v writes => rw [State.reg_advance, State.reg_setReg_of_ne s v (hne writes)]
  | popped r _ writes writesSp =>
    rw [State.reg_advance, State.reg_setReg_of_ne _ _ (hne writesSp), State.reg_setReg_of_ne _ _ (hne writes)]
  | pushed _ writes =>
    cases q with
    | sp => exact absurd rfl (hne writes)
    | a | b | x => rfl
  | stored | compared | halted | untaken | jumped | called | returned => cases q <;> rfl

theorem flags_eq (h : Effect cfg i s t) (hi : i ≠ .cmp) : t.z = s.z ∧ t.g = s.g ∧ t.l = s.l := by
  cases h with
  | compared isCmp => exact absurd isCmp hi
  | written | popped => simp
  | fault | stored | pushed | halted | untaken | jumped | called | returned => exact ⟨rfl, rfl, rfl⟩

theorem h_eq (h : Effect cfg i s t) (hi : i ≠ .hlt) : t.h = s.h := by
  cases h with
  | halted isHlt => exact absurd isHlt hi
  | written | popped => simp
  | fault | stored | pushed | compared | untaken | jumped | called | returned => rfl

theorem rs_eq (h : Effect cfg i s t) (hi : ∀ n, i ≠ .jsr n) : t.rs = s.rs := by
  cases h with
  | called n isJsr => exact absurd isJsr (hi n)
  | written | popped => simp
  | fault | stored | pushed | compared | halted | untaken | jumped | returned => rfl

end Effect

/-- Settles O45, one register or group of flags at a time. -/
theorem eachRegisterHasItsWriters : Obligations.EachRegisterHasItsWriters := by
  unfold Obligations.EachRegisterHasItsWriters
  intro i s t hexec
  have he := effect_of_exec hexec
  exact ⟨he.flags_eq, he.h_eq, he.rs_eq, he.reg_eq (q := .x), he.reg_eq (q := .sp), he.reg_eq (q := .a),
    he.reg_eq (q := .b)⟩

/-! ### Sticky flags and the recorded fault along runs -/

/-- What a later state keeps of an earlier one: set flags stay set (R15, R16), a recorded fault stays as it is (R18). -/
structure KeepsSticky (s t : State) : Prop where
  z : s.z = true → t.z = true
  g : s.g = true → t.g = true
  l : s.l = true → t.l = true
  h : s.h = true → t.h = true
  fault : s.fc ≠ .none → t.fc = s.fc ∧ t.fa = s.fa

theorem KeepsSticky.refl (s : State) : KeepsSticky s s := ⟨id, id, id, id, fun _ => ⟨rfl, rfl⟩⟩

theorem KeepsSticky.trans {s t u : State} (hst : KeepsSticky s t) (htu : KeepsSticky t u) : KeepsSticky s u where
  z := htu.z ∘ hst.z
  g := htu.g ∘ hst.g
  l := htu.l ∘ hst.l
  h := htu.h ∘ hst.h
  fault hs := by
    obtain ⟨hfc, hfa⟩ := hst.fault hs
    obtain ⟨hfc', hfa'⟩ := htu.fault (hfc ▸ hs)
    exact ⟨hfc'.trans hfc, hfa'.trans hfa⟩

/-- Only `cmp` and `hlt` touch a flag, and they set without clearing; a state with a fault has no step. -/
theorem keepsSticky_of_step {s t : State} (hstep : step s = .next t) : KeepsSticky s t := by
  obtain ⟨hrun, ht⟩ := step_cases hstep
  obtain ⟨hfc, -, -⟩ := (runState_eq_running_iff s).1 hrun
  have hfault : s.fc ≠ .none → t.fc = s.fc ∧ t.fa = s.fa := fun hs => absurd hfc hs
  obtain ⟨-, -, rfl⟩ | ⟨i, -, he⟩ := ht
  · exact ⟨id, id, id, id, hfault⟩
  · cases he with
    | compared =>
      exact ⟨fun hz => by simp [compareFlags, hz], fun hg => by simp [compareFlags, hg],
        fun hl => by simp [compareFlags, hl], id, hfault⟩
    | halted => exact ⟨id, id, id, fun _ => rfl, hfault⟩
    | written | popped => exact ⟨by simp, by simp, by simp, by simp, hfault⟩
    | fault | stored | pushed | untaken | jumped | called | returned => exact ⟨id, id, id, id, hfault⟩

/-- A reflexive and transitive relation that holds along every step holds along every run. -/
theorem rel_of_steps {R : State → State → Prop} (refl : ∀ s, R s s) (trans : ∀ {s t u}, R s t → R t u → R s u)
    (hstep : ∀ {s t}, step s = .next t → R s t) {k : Nat} {s t : State} (h : steps k s = .next t) : R s t := by
  induction k generalizing s with
  | zero => cases h; exact refl _
  | succ k ih =>
    rw [steps] at h
    split at h
    · rename_i u hu
      exact trans (hstep hu) (ih h)
    · cases h
    · cases h

/-- Settles O42, by induction on the number of steps. -/
theorem flagsAndFaultStickAlongRuns : Obligations.FlagsAndFaultStickAlongRuns := by
  unfold Obligations.FlagsAndFaultStickAlongRuns
  intro k s t hrun
  obtain ⟨hz, hg, hl, hh, hfault⟩ := rel_of_steps KeepsSticky.refl KeepsSticky.trans keepsSticky_of_step hrun
  exact ⟨hz, hg, hl, hh, hfault⟩

/-! ### The run state -/

theorem step_of_faulted {s : State} (h : s.runState = .faulted) : step s = .fault .faulted := by
  rw [step, cycle, h]

theorem step_of_halted {s : State} (h : s.runState = .halted) : step s = .fault (haltReason s) := by
  rw [step, cycle, h]

/-- Settles O30: the run state of each case of R19 decides what the step answers. -/
theorem stopsExactlyWhenNotRunning : Obligations.StopsExactlyWhenNotRunning := by
  unfold Obligations.StopsExactlyWhenNotRunning
  intro s
  refine ⟨fun hfc => ?_, fun hfc hh => ?_, fun hfc hh hpc => ?_, fun hfc hh hpc => ?_⟩
  · have hrun : s.runState = .faulted := by simp [State.runState, hfc]
    exact ⟨hrun, step_of_faulted hrun⟩
  · have hrun : s.runState = .halted := by simp [State.runState, hfc, hh]
    exact ⟨hrun, by simp [step_of_halted hrun, haltReason, hh]⟩
  · have hrun : s.runState = .halted := by simp [State.runState, hfc, hpc]
    exact ⟨hrun, by simp [step_of_halted hrun, haltReason, hh]⟩
  · have hrun : s.runState = .running := (runState_eq_running_iff s).2 ⟨hfc, hh, hpc⟩
    exact ⟨hrun, step_next_of_running hrun⟩

/-! ### Reset -/

/-- An unwritten cell reads as the empty cell (R22, R27). -/
@[simp] theorem read_reset (a : Nat) : Memory.read State.reset.mem a = Cell.empty := rfl

/-- Settles O32. -/
theorem resetStateIsAllZero : Obligations.ResetStateIsAllZero :=
  ⟨rfl, rfl, rfl, rfl, rfl, rfl, rfl, rfl, rfl, rfl, rfl, rfl, read_reset, by decide⟩

/-- Settles O33: 0 fits every `VW` of at least 17 bits. -/
theorem resetMeetsInvariants : Obligations.ResetMeetsInvariants := by
  unfold Obligations.ResetMeetsInvariants
  refine ⟨⟨by decide, by decide, Memory.wf_reset, fun _ _ => rfl⟩, fun cfg => ?_⟩
  have hzero : cfg.fits 0 = true := fits_of_17 cfg (by decide) (by decide)
  exact ⟨hzero, hzero, hzero, hzero, fun _ => hzero⟩

end Sys2Proof.Machine
end

section
/-! SUPPORT. The claims about memory (spec/20_memory.md): the order of the faults of a data read and a data write, the frame
of memory, and what a store does to a later fetch. -/

namespace Sys2Proof.Machine

/-! ### Data reads come first -/

theorem memRead_of_not_inRange {s : State} {a : Int} (h : inRange a = false) :
    memRead s a = .error (.addressOutOfRange a) := by
  simp [memRead_eq, h]

theorem memRead_of_holdsRecord {s : State} {a : Int} (h : HoldsRecord s a) : memRead s a = .error (.notData a) := by
  simp [memRead_eq, h.1, h.2]

theorem memRead_of_readable {s : State} {a : Int} (h : Readable s a) : memRead s a = .ok (contentAt s a) := by
  simp [memRead_eq, h.1, h.2]

/-- A computation that starts with a failing source ends the instruction with that source's fault (R75, R185). -/
theorem finish_bind_of_error {α : Type} {source : Except Raise α} {r : Raise} (h : source = .error r) (s : State)
    (k : α → Except Raise State) : finish s (source >>= k) = .next (s.raise r) := by
  rw [h]
  rfl

/-- Each instruction with a data read starts with it, so a fault of the read is the instruction's answer (R185). -/
theorem execIn_of_memRead_error {cfg : Config} {i : Instr} {s : State} {a : Int} {r : Raise}
    (source : i.sourceAddress s = some a) (h : memRead s a = .error r) : execIn cfg i s = .next (s.raise r) := by
  cases i with
  | ldaDir | ldaIdx | ldbDir | ldbIdx | addaDir | addaIdx | addbDir | addbIdx | subaDir | subaIdx | subbDir | subbIdx
  | andaDir | andaIdx | andbDir | andbIdx | oraDir | oraIdx | orbDir | orbIdx | pshDir | pshIdx | popa | popb =>
    cases source
    exact finish_bind_of_error h s _
  | _ => cases source

/-- Settles O38: the two faults of the read, passed on by every instruction that reads. -/
theorem sourceReadFaultsComeFirst : Obligations.SourceReadFaultsComeFirst := by
  unfold Obligations.SourceReadFaultsComeFirst
  intro i s a source
  rw [← execIn_chip]
  exact ⟨fun h => execIn_of_memRead_error source (memRead_of_not_inRange h),
    fun h => execIn_of_memRead_error source (memRead_of_holdsRecord h)⟩

/-! ### Data writes -/

/-- A push of a value is the data write at the decremented SP (R13, R150). -/
theorem push_ok_eq_memWrite (cfg : Config) (v : Int) (s : State) :
    push cfg (.ok v) s = memWrite cfg (s.sp - 1) v { s with sp := s.sp - 1 } := by
  rw [push_ok, memWrite_eq]

/-- A push of a readable cell is the data write of its content at the decremented SP (R153, R154). -/
theorem push_memRead_eq_memWrite {s : State} {b : Int} (h : Readable s b) (cfg : Config) :
    push cfg (memRead s b) s = memWrite cfg (s.sp - 1) (contentAt s b) { s with sp := s.sp - 1 } := by
  rw [memRead_of_readable h, push_ok_eq_memWrite]

/-- Once its source is read, every store and push is one data write of its value at its target, with SP decremented in a
push (R35, R185). -/
theorem execIn_eq_finish_memWrite {i : Instr} {s : State} {a : Int} (cfg : Config) (target : i.targetAddress s = some a)
    (source : ∀ b, i.sourceAddress s = some b → Readable s b) :
    ∃ v sp', i.storedValue s = some v ∧ execIn cfg i s = finish s (memWrite cfg a v { s with sp := sp' }) := by
  cases i with
  | staDir | staIdx | stbDir | stbIdx =>
    cases target
    exact ⟨_, s.sp, rfl, rfl⟩
  | psha | pshb | pshImm =>
    cases target
    exact ⟨_, _, rfl, congrArg (finish s) (push_ok_eq_memWrite cfg _ s)⟩
  | pshDir | pshIdx =>
    cases target
    exact ⟨_, _, rfl, congrArg (finish s) (push_memRead_eq_memWrite (source _ rfl) cfg)⟩
  | _ => cases target

/-- Settles O39: the write checks its address before its value, under every `VW`. -/
theorem writeAddressFaultsComeSecond : Obligations.WriteAddressFaultsComeSecond := by
  unfold Obligations.WriteAddressFaultsComeSecond
  intro cfg i s a target source h
  obtain ⟨v, sp', -, hexec⟩ := execIn_eq_finish_memWrite cfg target source
  have hwrite : memWrite cfg a v { s with sp := sp' } = .error (.addressOutOfRange a) := by simp [memWrite_eq, h]
  rw [hexec, hwrite, finish_error]

/-! ### The frame of memory -/

namespace Effect

variable {cfg : Config} {i : Instr} {s t : State}

/-- An instruction without a target stores nothing (R31). -/
theorem mem_eq_of_no_target (h : Effect cfg i s t) (target : i.targetAddress s = none) : t.mem = s.mem := by
  obtain hm | ⟨a, -, ha, -, -⟩ := h.mem_cases
  · exact hm
  · rw [target] at ha
    cases ha

/-- Every cell but the target is as it was (R31, R44). -/
theorem read_eq_of_ne_target (h : Effect cfg i s t) {a : Int} (target : i.targetAddress s = some a) {b : Nat}
    (hb : b ≠ a.toNat) : Memory.read t.mem b = Memory.read s.mem b := by
  obtain hm | ⟨c, v, hc, -, hm⟩ := h.mem_cases
  · rw [hm]
  · obtain rfl : a = c := Option.some.inj (target.symm.trans hc)
    rw [hm, Memory.read_write_other _ _ hb]

/-- Only a fault changes FC, and a fault changes no cell (R75, R186). -/
theorem mem_eq_of_fc_ne (h : Effect cfg i s t) (hfc : t.fc ≠ s.fc) : t.mem = s.mem := by
  cases h with
  | stored | pushed => exact absurd rfl hfc
  | written | popped => simp
  | fault | compared | halted | untaken | jumped | called | returned => rfl

end Effect

/-- Settles O44. -/
theorem onlyTheTargetCellIsWritten : Obligations.OnlyTheTargetCellIsWritten := by
  unfold Obligations.OnlyTheTargetCellIsWritten
  intro i s t hexec
  have he := effect_of_exec hexec
  exact ⟨he.mem_eq_of_no_target, fun _ target _ => he.read_eq_of_ne_target target,
    fun hs ht => he.mem_eq_of_fc_ne (hs ▸ ht)⟩

/-! ### A store seen by a fetch -/

/-- A store or push with a legal address and a value that fits completes, and its target is then the data cell (R35). -/
theorem exec_store_completes {i : Instr} {s : State} {a v : Int} (target : i.targetAddress s = some a)
    (value : i.storedValue s = some v) (legal : inRange a = true) (fits : Fits v)
    (source : ∀ b, i.sourceAddress s = some b → Readable s b) :
    ∃ t, exec i s = .next t ∧ Memory.read t.mem a.toNat = Cell.ofValue v := by
  obtain ⟨w, sp', hw, hexec⟩ := execIn_eq_finish_memWrite Config.chip target source
  obtain rfl : v = w := Option.some.inj (value.symm.trans hw)
  rw [execIn_chip, memWrite_eq, if_pos legal, if_pos fits, finish_ok] at hexec
  exact ⟨_, hexec, Memory.read_write_same _ _ _⟩

/-- A Running state whose fetched cell is data steps over it (R72). -/
theorem step_of_data {s : State} (hrun : s.runState = .running) (hdata : (fetch s).kind = .data) :
    step s = .next s.advance := by
  rw [step, cycle, hrun]
  dsimp only
  rw [decode_of_data hdata]
  rfl

/-- Settles O48: the stored cell is a data cell, and data cells are stepped over. -/
theorem storeIsSeenByTheNextFetch : Obligations.StoreIsSeenByTheNextFetch := by
  unfold Obligations.StoreIsSeenByTheNextFetch
  intro i s a v target value legal fits source
  obtain ⟨t, hexec, hread⟩ := exec_store_completes target value legal fits source
  refine ⟨t, hexec, hread, fun u hmem hpc hrun => step_of_data hrun ?_⟩
  have hfetch : fetch u = Cell.ofValue v := by rw [fetch, hmem, hpc, hread]
  rw [hfetch]
  rfl

end Sys2Proof.Machine
end

section
/-! SUPPORT. The claims about the record format (spec/30_encoding.md R45 to R53, R62): the word, the bits and the opcode map, read
in both directions. -/

namespace Sys2Proof

/-! ### The word of a cell -/

/-- `OP ‖ K` as a number, the part of the word below `VAL` (R45). -/
theorem Cell.header_toNat (c : Cell) : c.header.toNat = c.op.toNat * 2 + c.kind.toNat := by
  have hk : c.kind.toNat < 2 ^ 1 := by cases c.kind <;> decide
  calc c.header.toNat = c.op.toNat <<< 1 ||| (BitVec.ofNat 1 c.kind.toNat).toNat := BitVec.toNat_append _ _
    _ = c.op.toNat <<< 1 + c.kind.toNat := by
      rw [BitVec.toNat_ofNat, Nat.mod_eq_of_lt hk, Nat.shiftLeft_add_eq_or_of_lt hk]
    _ = _ := by rw [Nat.shiftLeft_eq]

theorem Cell.word_eq_header (c : Cell) : c.word = 512 * c.val + c.header.toNat := by
  rw [Cell.word, Cell.header_toNat]
  push_cast
  ring

/-- The number of a cell stands for that cell alone (R45). -/
theorem Cell.ofWord_word (c : Cell) : Cell.ofWord c.word = c := by
  obtain ⟨k, op, v⟩ := c
  have hop := op.isLt
  have hval : (v * 512 + op.toNat * 2 + k.toNat) / 512 = v := by cases k <;> simp only [Kind.toNat] <;> omega
  have hlow : (v * 512 + op.toNat * 2 + k.toNat) / 2 = v * 256 + op.toNat := by
    cases k <;> simp only [Kind.toNat] <;> omega
  have hodd : (v * 512 + op.toNat * 2 + k.toNat) % 2 = k.toNat := by cases k <;> simp only [Kind.toNat] <;> omega
  have hbyte : BitVec.ofInt 8 (v * 256 + op.toNat) = op := by
    apply BitVec.eq_of_toNat_eq
    rw [BitVec.toNat_ofInt]
    omega
  simp only [Cell.ofWord, Cell.word, hval, hlow, hodd, hbyte]
  cases k <;> rfl

/-! ### The bits of a cell -/

/-- The two's complement of `n` bits reads back a value that they hold (R48). -/
theorem toInt_ofInt_of_fits {n : Nat} {h : 17 ≤ n} {v : Int} (hv : (ValueWidth.bits n h).fits v = true) :
    (BitVec.ofInt n v).toInt = v := by
  obtain ⟨hlo, hhi⟩ := (Machine.fits_bits_iff h v).1 hv
  exact BitVec.toInt_ofInt_eq_self (by omega) hlo (by omega)

/-- Bit 0 of the cell is `K` (R45). -/
theorem Cell.toBits_kind (n : Nat) (c : Cell) : (c.toBits n).getLsbD 0 = (c.kind == .record) := by
  rw [Cell.toBits, BitVec.getLsbD_append, if_pos (by decide), Cell.header_bit_zero]

/-- Bits 8:1 of the cell are `OP` (R45). -/
theorem Cell.toBits_op (n : Nat) (c : Cell) : (c.toBits n).extractLsb' 1 8 = c.op := by
  rw [Cell.toBits, BitVec.extractLsb'_append_eq_of_add_le (by decide)]
  exact BitVec.extractLsb'_append_eq_left

/-- The bits above the header are `VAL` (R45). -/
theorem Cell.toBits_val (n : Nat) (c : Cell) : (c.toBits n).extractLsb' 9 n = BitVec.ofInt n c.val :=
  BitVec.extractLsb'_append_eq_left

/-- The bits of a cell whose `VAL` they can hold stand for that cell alone (R45, R48). -/
theorem Cell.ofBits_toBits {n : Nat} {h : 17 ≤ n} {c : Cell} (hv : (ValueWidth.bits n h).fits c.val = true) :
    Cell.ofBits n (c.toBits n) = c := by
  rw [Cell.ofBits, Cell.toBits_kind, Cell.toBits_op, Cell.toBits_val, toInt_ofInt_of_fits hv]
  obtain ⟨k, op, v⟩ := c
  cases k <;> rfl

/-- The bits of a cell as a number are its word modulo their range (R45). -/
theorem Cell.toBits_toNat (n : Nat) (c : Cell) : ((c.toBits n).toNat : Int) = c.word % 2 ^ (n + 9) := by
  have hnat : (c.toBits n).toNat = 512 * (BitVec.ofInt n c.val).toNat + c.header.toNat := by
    rw [Cell.toBits, BitVec.toNat_append, ← Nat.shiftLeft_add_eq_or_of_lt c.header.isLt, Nat.shiftLeft_eq, mul_comm]
  have hval : ((BitVec.ofInt n c.val).toNat : Int) = c.val % 2 ^ n := by
    rw [BitVec.toNat_ofInt, Int.toNat_of_nonneg (Int.emod_nonneg _ (by positivity))]
    push_cast
    rfl
  have hnonneg := Int.emod_nonneg c.val (b := 2 ^ n) (by positivity)
  have hlt := Int.emod_lt_of_pos c.val (b := 2 ^ n) (by positivity)
  have hheader : c.header.toNat < 512 := c.header.isLt
  have hword : c.word = (512 * (c.val % 2 ^ n) + c.header.toNat) + 2 ^ (n + 9) * (c.val / 2 ^ n) := by
    rw [Cell.word_eq_header]
    linear_combination 512 * (Int.mul_ediv_add_emod c.val (2 ^ n)).symm
  rw [hnat, hword, Int.add_mul_emod_self_left, Int.emod_eq_of_lt (by omega) (by rw [pow_add]; omega)]
  push_cast
  rw [hval]

/-- Settles O3. -/
theorem cellNumberAndBitsAreFaithful : Obligations.CellNumberAndBitsAreFaithful := by
  unfold Obligations.CellNumberAndBitsAreFaithful
  exact ⟨Cell.ofWord_word, fun n _ c hv => ⟨Cell.ofBits_toBits hv, c.toBits_toNat n⟩⟩

/-! ### Records -/

/-- The record of a well-formed instruction holds a value of the width; format N holds 0 (R48, R52). -/
theorem Instr.fits_encode_val {w : ValueWidth} {i : Instr} (h : i.wellFormed w = true) : w.fits (encode i).val = true := by
  rw [Instr.wellFormed] at h
  unfold encode
  cases hi : i.operand with
  | none => exact Machine.fits_of_17 ⟨w, .none⟩ (v := 0) (by decide) (by decide)
  | some v => simpa [hi] using h

/-- Settles O2: each reading gives the record back, and the decoder undoes the encoder on records. -/
theorem recordWordRoundTrip : Obligations.RecordWordRoundTrip := by
  unfold Obligations.RecordWordRoundTrip
  refine ⟨fun i => ?_, fun n h i hi => ?_⟩
  · rw [Cell.ofWord_word, decode_encode]
  · rw [Cell.ofBits_toBits (Instr.fits_encode_val hi), decode_encode]

/-- Instructions with the same OP and operand are the same. -/
theorem Instr.eq_of_op_of_operand {i j : Instr} (hop : i.op = j.op) (hoperand : i.operand = j.operand) : i = j := by
  have h : encode i = encode j := by rw [encode, encode, hop, hoperand]
  exact Except.ok.inj ((decode_encode i).symm.trans ((congrArg decode h).trans (decode_encode j)))

/-! ### The opcode map -/

/-- What a row makes of a value has the row's OP, and the value as operand unless the row is of format N (R49, R52). -/
theorem op_and_operand_of_row {r : OpcodeRow} (hr : r ∈ opcodeMap) (v : Int) :
    (r.make v).op = r.op ∧ (r.make v).operand = if r.format = .implied then none else some v := by
  fin_cases hr <;> exact ⟨rfl, rfl⟩

theorem opcodeMap_ops_nodup : (opcodeMap.map (·.op)).Nodup := by decide

/-- A lookup by the OP of a row finds that row, since no other has its OP (R49). -/
theorem find_row {r : OpcodeRow} (hr : r ∈ opcodeMap) : opcodeMap.find? (fun q => q.op == r.op) = some r := by
  cases h : opcodeMap.find? (fun q => q.op == r.op) with
  | none => exact absurd (BEq.refl r.op) (List.find?_eq_none.1 h r hr)
  | some q =>
    have hop : q.op = r.op := by simpa using List.find?_some h
    exact congrArg some (List.inj_on_of_nodup_map opcodeMap_ops_nodup (List.mem_of_find?_eq_some h) hr hop)

/-- A record with the OP of a row decodes to that row's instruction (R49). -/
theorem decode_row {r : OpcodeRow} (hr : r ∈ opcodeMap) (v : Int) : decode ⟨.record, r.op, v⟩ = .ok (r.make v) := by
  simp [decode, find_row hr]

/-- A record with the OP of no row is unassigned (R50). -/
theorem decode_unassigned {op : BitVec 8} (h : ∀ r ∈ opcodeMap, r.op ≠ op) (v : Int) :
    decode ⟨.record, op, v⟩ = .error (.unassigned op) := by
  have hnone : opcodeMap.find? (fun r => r.op == op) = none := List.find?_eq_none.2 (by simpa using h)
  simp [decode, hnone]

/-- A format-N row makes one instruction, whatever the value (R52). -/
theorem make_eq_of_implied {r : OpcodeRow} (hr : r ∈ opcodeMap) (hf : r.format = .implied) (v w : Int) :
    r.make v = r.make w := by
  obtain ⟨hop, hoperand⟩ := op_and_operand_of_row hr v
  obtain ⟨hop', hoperand'⟩ := op_and_operand_of_row hr w
  rw [if_pos hf] at hoperand hoperand'
  exact Instr.eq_of_op_of_operand (hop.trans hop'.symm) (hoperand.trans hoperand'.symm)

/-- Settles O4: the decoded instruction is made by the row of the cell's OP from the cell's value. -/
theorem decodedInstructionDeterminesOpcode : Obligations.DecodedInstructionDeterminesOpcode := by
  unfold Obligations.DecodedInstructionDeterminesOpcode
  intro c i h
  obtain ⟨hk, r, hr, hrop, rfl⟩ := row_of_decode h
  obtain ⟨hop, hoperand⟩ := op_and_operand_of_row hr c.val
  refine ⟨hk, (hop.trans hrop).symm, ?_⟩
  split at hoperand
  · exact .inl hoperand
  · exact .inr hoperand

/-- Settles O6. -/
theorem formatNIgnoresVal : Obligations.FormatNIgnoresVal := by
  unfold Obligations.FormatNIgnoresVal
  refine ⟨fun r hr hf v w => ?_, fun i hi => ?_⟩
  · rw [decode_row hr, decode_row hr, make_eq_of_implied hr hf v w]
  · rw [encode, hi]
    rfl

/-- As many numbers of a byte are in a list of distinct bytes as the list is long. -/
theorem length_filter_mem_of_nodup {ops : List (BitVec 8)} (h : ops.Nodup) :
    ((List.range 256).filter (fun k => BitVec.ofNat 8 k ∈ ops)).length = ops.length := by
  have hperm : ((List.range 256).filter (fun k => BitVec.ofNat 8 k ∈ ops)).Perm (ops.map BitVec.toNat) := by
    refine (List.perm_ext_iff_of_nodup (List.nodup_range.filter _) (h.map fun _ _ => BitVec.eq_of_toNat_eq)).2 fun k => ?_
    simp only [List.mem_filter, List.mem_range, decide_eq_true_eq, List.mem_map]
    constructor
    · rintro ⟨hk, hmem⟩
      exact ⟨_, hmem, by rw [BitVec.toNat_ofNat, Nat.mod_eq_of_lt hk]⟩
    · rintro ⟨op, hmem, rfl⟩
      exact ⟨op.isLt, by rwa [BitVec.ofNat_toNat, BitVec.setWidth_eq]⟩
  rw [hperm.length_eq, List.length_map]

/-- Of the 256 numbers of a byte, a list of distinct bytes leaves out all but its length. -/
theorem length_filter_all_ne_of_nodup {ops : List (BitVec 8)} (h : ops.Nodup) :
    ((List.range 256).filter (fun k => ops.all (· != BitVec.ofNat 8 k))).length = 256 - ops.length := by
  have hnot : ∀ k, ops.all (· != BitVec.ofNat 8 k) = !decide (BitVec.ofNat 8 k ∈ ops) := by
    intro k
    rw [Bool.eq_iff_iff]
    simp [List.forall_mem_ne']
  have hsplit := List.length_eq_length_filter_add (l := List.range 256) (fun k => decide (BitVec.ofNat 8 k ∈ ops))
  rw [List.length_range, length_filter_mem_of_nodup h] at hsplit
  simp only [hnot]
  omega

/-- The 64 rows leave 192 of the 256 OPs unassigned (R50). -/
theorem unassigned_length :
    ((List.range 256).filter (fun k => opcodeMap.all (fun r => r.op != BitVec.ofNat 8 k))).length = 192 := by
  have h := length_filter_all_ne_of_nodup opcodeMap_ops_nodup
  simp only [List.all_map, List.length_map] at h
  exact h

/-- Settles O5. -/
theorem opcodeMapIsTheTable : Obligations.OpcodeMapIsTheTable := by
  unfold Obligations.OpcodeMapIsTheTable
  exact ⟨rfl, rfl, opcodeMap_ops_nodup, by decide, fun _ hr => decode_row hr, fun _ v h => decode_unassigned h v,
    unassigned_length⟩

/-- Settles O1. -/
theorem specWordsDecode : Obligations.SpecWordsDecode := by
  unfold Obligations.SpecWordsDecode
  decide

end Sys2Proof
end

section
/-! SUPPORT. The claims about the assembler (spec/30_encoding.md R54 to R66): pass 2 gives every token stream an image of the
layout of R61 or an error that has its cause in the stream. -/

namespace Sys2Proof.Machine

/-! ### What pass 2 answers, in the words of the claims -/

/-- The cells of a stream, token by token (R61); `tokens` is the whole text, which gives the labels their values. -/
inductive Layout (tokens : List Token) : List Token → List Cell → Prop where
  | nil : Layout tokens [] []
  | inert {t ts cs} : ¬ IsMnemonic t → ¬ OperandShaped t → Layout tokens ts cs → Layout tokens (t :: ts) (Cell.empty :: cs)
  | implied {r t ts cs} : r ∈ opcodeMap → r.mnemonic.toList = t → r.format = .implied → Layout tokens ts cs →
      Layout tokens (t :: ts) (⟨.record, r.op, 0⟩ :: cs)
  | operand {r t o v ts cs} : r ∈ opcodeMap → r.mnemonic.toList = t → ¬ IsMnemonic o → Denotes tokens o r.format v →
      Layout tokens ts cs → Layout tokens (t :: o :: ts) (⟨.record, r.op, (v : Nat)⟩ :: Cell.empty :: cs)

/-- The cause of an error in a stream (R58, log entry 8), with a label past the end as one whose value is no 16-bit address. -/
def HasCause (tokens stream : List Token) : AsmError → Prop
  | .unresolvedLabel name => '[' :: (name ++ [']']) ∈ stream ∧ NamesLabel name ∧ ∀ t ∈ tokens, labelName t ≠ some name
  | .labelPastEnd name => '[' :: (name ++ [']']) ∈ stream ∧ NamesLabel name ∧ ∃ v, LabelIndex tokens name v ∧ 0xFFFF < v
  | .strayOperand => ∃ i o, stream[i]? = some o ∧ OperandShaped o ∧ ∀ j t, i = j + 1 → stream[j]? = some t → ¬ IsMnemonic t
  | .operandOfImplied => ∃ i t o, stream[i]? = some t ∧ TakesNoOperand t ∧ stream[i + 1]? = some o ∧ OperandShaped o
  | .modeLacking => ∃ i t o f v, stream[i]? = some t ∧ TakesOperand t ∧ stream[i + 1]? = some o ∧ Denotes tokens o f v ∧
      ∀ r ∈ opcodeMap, r.mnemonic.toList = t → r.format ≠ f
  | .missingOperand => ∃ i t, stream[i]? = some t ∧ TakesOperand t ∧ ∀ o, stream[i + 1]? = some o → ¬ OperandShaped o
  | .badHex => ∃ o ∈ stream, HasBadHex o
  | .tooLong => memSize < stream.length

/-- What pass 2 may answer for a stream: an image of its layout, or an error with its cause. -/
def Answers (tokens stream : List Token) : Except AsmError (List Cell) → Prop
  | .ok image => Layout tokens stream image
  | .error e => HasCause tokens stream e

/-- A cause in the rest of a stream is one in the stream, unless a mnemonic `p` stands before the rest's first operand token. -/
theorem HasCause.append {tokens ts : List Token} {p : Token} {e : AsmError} (h : HasCause tokens ts e)
    (hhead : ∀ o, ts.head? = some o → OperandShaped o → ¬ IsMnemonic p) (before : List Token) :
    HasCause tokens (before ++ p :: ts) e := by
  have hmem {o : Token} (ho : o ∈ ts) : o ∈ before ++ p :: ts := by simp [ho]
  have hget (k : Nat) : (before ++ p :: ts)[before.length + 1 + k]? = ts[k]? := by
    rw [List.getElem?_append_right (by omega), Nat.add_assoc, Nat.add_sub_cancel_left, Nat.add_comm 1, List.getElem?_cons_succ]
  cases e with
  | unresolvedLabel name | labelPastEnd name =>
    obtain ⟨ho, hrest⟩ := h
    exact ⟨hmem ho, hrest⟩
  | strayOperand =>
    obtain ⟨i, o, ho, hshape, hbefore⟩ := h
    refine ⟨before.length + 1 + i, o, (hget i).trans ho, hshape, fun j u hj hu => ?_⟩
    cases i with
    | zero =>
      obtain rfl : j = before.length := by omega
      obtain rfl : p = u := by simpa using hu
      exact hhead o (List.head?_eq_getElem?.trans ho) hshape
    | succ k =>
      obtain rfl : j = before.length + 1 + k := by omega
      exact hbefore k u rfl ((hget k).symm.trans hu)
  | operandOfImplied =>
    obtain ⟨i, t, o, ht, htakes, ho, hshape⟩ := h
    exact ⟨_, t, o, (hget i).trans ht, htakes, (hget (i + 1)).trans ho, hshape⟩
  | modeLacking =>
    obtain ⟨i, t, o, f, v, ht, htakes, ho, hrest⟩ := h
    exact ⟨_, t, o, f, v, (hget i).trans ht, htakes, (hget (i + 1)).trans ho, hrest⟩
  | missingOperand =>
    obtain ⟨i, t, ht, htakes, hnext⟩ := h
    exact ⟨_, t, (hget i).trans ht, htakes, fun o ho => hnext o ((hget (i + 1)).symm.trans ho)⟩
  | badHex =>
    obtain ⟨o, ho, hbad⟩ := h
    exact ⟨o, hmem ho, hbad⟩
  | tooLong =>
    have hlong : memSize < ts.length := h
    show memSize < (before ++ p :: ts).length
    rw [List.length_append, List.length_cons]
    omega

/-! ### The record of a mnemonic with an operand token -/

/-- An operand token that reads as a reading of `resolve` denotes what `resolve` answers, or shows why it has no value. -/
theorem resolve_cases {tokens : List Token} {o : Token} {token : OperandToken} (h : ReadsAs o (.ok token)) :
    (∃ f v, resolve (labelPass tokens 0 []).2 token = .ok (f, v) ∧ Denotes tokens o f v) ∨
    ∃ e, resolve (labelPass tokens 0 []).2 token = .error e ∧ ∀ stream, o ∈ stream → HasCause tokens stream e := by
  cases token with
  | literal f v =>
    obtain ⟨-, -, hdenotes⟩ := h
    exact .inl ⟨f, v, rfl, hdenotes tokens⟩
  | reference name =>
    obtain ⟨rfl, hname⟩ := h
    rw [resolve]
    split
    · next v hv =>
      have hindex := labelIndex_of_lookup hv
      split
      · next hle => exact .inl ⟨_, _, rfl, .label name v hname hindex hle⟩
      · next hle => exact .inr ⟨_, rfl, fun _ hmem => ⟨hmem, hname, v, hindex, not_le.1 hle⟩⟩
    · next hv => exact .inr ⟨_, rfl, fun _ hmem => ⟨hmem, hname, (undefined_of_lookup hv).1⟩⟩

/-- A mnemonic that takes an operand gets the record of its row in the operand token's format, or an error with its cause. -/
theorem recordOf_cases {tokens : List Token} {t o : Token} {read : Except AsmError OperandToken} (ht : TakesOperand t)
    (h : ReadsAs o read) (ts : List Token) :
    (∃ r v, recordOf (labelPass tokens 0 []).2 t read = .ok ⟨.record, r.op, (v : Nat)⟩ ∧ r ∈ opcodeMap ∧
      r.mnemonic.toList = t ∧ Denotes tokens o r.format v) ∨
    ∃ e, recordOf (labelPass tokens 0 []).2 t read = .error e ∧ HasCause tokens (t :: o :: ts) e := by
  have hmem : o ∈ t :: o :: ts := by simp
  cases read with
  | error e =>
    obtain ⟨rfl, hbad⟩ := h
    exact .inr ⟨_, rfl, o, hmem, hbad⟩
  | ok token =>
    obtain ⟨f, v, hv, hdenotes⟩ | ⟨e, he, hcause⟩ := resolve_cases (tokens := tokens) h
    · cases hrow : rowOf t f with
      | some r =>
        obtain ⟨hr, hm, rfl⟩ := rowOf_some hrow
        exact .inl ⟨r, v, by simp [recordOf, bind, Except.bind, hv, hrow], hr, hm, hdenotes⟩
      | none =>
        exact .inr ⟨.modeLacking, by simp [recordOf, bind, Except.bind, hv, hrow],
          0, t, o, f, v, rfl, ht, rfl, hdenotes, rowOf_none hrow⟩
    · exact .inr ⟨e, by simp [recordOf, bind, Except.bind, he], hcause _ hmem⟩

/-! ### Pass 2 -/

/-! Of the three cases of a token, its class leaves one. -/

theorem mnemonic_of_classify {t : Token} (h : classify t = .mnemonic) : IsMnemonic t ∧ ¬ OperandShaped t := by
  simpa [h] using classify_cases t

theorem inert_of_classify {t : Token} (h : classify t = .inert) : ¬ IsMnemonic t ∧ ¬ OperandShaped t := by
  simpa [h] using classify_cases t

theorem operand_of_classify {t : Token} {read : Except AsmError OperandToken} (h : classify t = .operand read) :
    ¬ IsMnemonic t ∧ OperandShaped t ∧ ReadsAs t read := by
  simpa [h] using classify_cases t

/-- An answer for the rest of a stream becomes one for the stream by the cells put before its image. -/
theorem Answers.map {tokens ts ts' : List Token} {answer : Except AsmError (List Cell)} {f : List Cell → List Cell}
    (h : Answers tokens ts answer) (hlayout : ∀ cs, Layout tokens ts cs → Layout tokens ts' (f cs))
    (hcause : ∀ e, HasCause tokens ts e → HasCause tokens ts' e) : Answers tokens ts' (answer.map f) := by
  cases answer with
  | ok cs => exact hlayout cs h
  | error e => exact hcause e h

/-- A mnemonic that takes an operand is refused where no operand token follows it (R58). -/
theorem answers_missingOperand {tokens ts : List Token} {t : Token} (ht : TakesOperand t)
    (h : ∀ o, ts.head? = some o → ¬ OperandShaped o) : Answers tokens (t :: ts) (.error .missingOperand) :=
  ⟨0, t, rfl, ht, fun o ho => h o (List.head?_eq_getElem?.trans ho)⟩

/-- Pass 2 answers an image of the stream's layout or an error with its cause, by induction along its own recursion. -/
theorem answers_encodePass (tokens ts : List Token) : Answers tokens ts (encodePass (labelPass tokens 0 []).2 ts) := by
  induction ts using encodePass.induct with
  | case1 => exact .nil
  | case2 o rest read hc =>
    -- an operand token where none may stand
    obtain ⟨-, hshape, -⟩ := operand_of_classify hc
    unfold encodePass
    simp only [hc]
    exact ⟨0, o, rfl, hshape, fun j _ hj => absurd hj.symm (Nat.succ_ne_zero j)⟩
  | case3 t rest hc ih =>
    -- an inert token
    obtain ⟨hm, hshape⟩ := inert_of_classify hc
    unfold encodePass
    simp only [hc]
    exact ih.map (fun _ => .inert hm hshape) fun _ he => he.append (fun _ _ _ => hm) []
  | case4 t rest hc r hrow hoperand =>
    -- an operand token after a format-N mnemonic
    obtain ⟨hr, hname, hf⟩ := rowOf_some hrow
    obtain ⟨o, ho, hshape⟩ := (Option.any_eq_true _ _).1 hoperand
    unfold encodePass
    simp only [hc, hrow, hoperand, if_true]
    exact ⟨0, t, o, rfl, ⟨r, hr, hname, hf⟩, List.head?_eq_getElem?.symm.trans ho, (isOperand_iff o).1 hshape⟩
  | case5 t rest hc r hrow hoperand ih =>
    -- a format-N mnemonic: its cell, and the next token is no operand token, so no stray one
    obtain ⟨hr, hname, hf⟩ := rowOf_some hrow
    unfold encodePass
    simp only [hc, hrow, hoperand]
    exact ih.map (fun _ => .implied hr hname hf) fun _ he => he.append (fun o ho hshape =>
      absurd ((Option.any_eq_true _ _).2 ⟨o, ho, (isOperand_iff o).2 hshape⟩) hoperand) []
  | case6 t hc hrow =>
    -- a mnemonic at the end with its operand missing
    unfold encodePass
    simp only [hc, hrow]
    exact answers_missingOperand (takesOperand_of_rowOf (mnemonic_of_classify hc).1 hrow) nofun
  | case7 t hc hrow o rest ho =>
    -- a mnemonic where the operand should be
    unfold encodePass
    simp only [hc, hrow, ho]
    refine answers_missingOperand (takesOperand_of_rowOf (mnemonic_of_classify hc).1 hrow) ?_
    rintro _ ⟨⟩
    exact (mnemonic_of_classify ho).2
  | case8 t hc hrow o rest ho =>
    -- an inert token where the operand should be
    unfold encodePass
    simp only [hc, hrow, ho]
    refine answers_missingOperand (takesOperand_of_rowOf (mnemonic_of_classify hc).1 hrow) ?_
    rintro _ ⟨⟩
    exact (inert_of_classify ho).2
  | case9 t hc hrow o rest read ho ih =>
    -- a mnemonic with its operand token: two cells or the record's own error
    obtain ⟨hm, hshape, hreads⟩ := operand_of_classify ho
    have ht := takesOperand_of_rowOf (mnemonic_of_classify hc).1 hrow
    unfold encodePass
    simp only [hc, hrow, ho]
    obtain ⟨r, v, hrecord, hr, hname, hdenotes⟩ | ⟨e, he, hcause⟩ := recordOf_cases (tokens := tokens) ht hreads rest
    · rw [hrecord]
      exact ih.map (f := fun cs => ⟨.record, r.op, (v : Nat)⟩ :: Cell.empty :: cs)
        (fun _ => .operand hr hname hm hdenotes) fun _ he => he.append (fun _ _ _ => hm) [t]
    · rw [he]
      exact hcause

/-! ### The cell of each token -/

/-- What stands at the index of a token in a laid-out image (R61), and what makes the token one of its kind (R56, R57). -/
inductive CellOf (tokens ts : List Token) (cs : List Cell) : Nat → Token → Prop where
  | inert {i t} : ¬ IsMnemonic t → ¬ OperandShaped t → cs[i]? = some Cell.empty → CellOf tokens ts cs i t
  | implied {i r} : r ∈ opcodeMap → r.format = .implied → cs[i]? = some ⟨.record, r.op, 0⟩ →
      CellOf tokens ts cs i r.mnemonic.toList
  | record {i r o v} : r ∈ opcodeMap → ts[i + 1]? = some o → Denotes tokens o r.format v →
      cs[i]? = some ⟨.record, r.op, (v : Nat)⟩ → CellOf tokens ts cs i r.mnemonic.toList
  | operand {j m t} : ts[j]? = some m → TakesOperand m → ¬ IsMnemonic t → cs[j + 1]? = some Cell.empty →
      CellOf tokens ts cs (j + 1) t

/-- A token and a cell put before a stream and its image move every index by one. -/
theorem CellOf.cons {tokens ts : List Token} {cs : List Cell} {i : Nat} {t : Token} (h : CellOf tokens ts cs i t) (u : Token)
    (c : Cell) : CellOf tokens (u :: ts) (c :: cs) (i + 1) t := by
  cases h with
  | inert hm hshape hcell => exact .inert hm hshape hcell
  | implied hr hf hcell => exact .implied hr hf hcell
  | record hr ho hdenotes hcell => exact .record hr ho hdenotes hcell
  | operand hm htakes ht hcell => exact .operand hm htakes ht hcell

/-- The value of an operand token is a 16-bit one, and its format is not the implied one (R48, R57). -/
theorem Denotes.le_and_ne_implied {tokens : List Token} {o : Token} {f : Format} {v : Nat} (h : Denotes tokens o f v) :
    v ≤ 0xFFFF ∧ f ≠ .implied := by
  cases h with
  | immediate _ _ hex | hashImmediate _ _ hex | direct _ _ hex | indexed _ _ _ _ hex => exact ⟨hex.le, by decide⟩
  | label _ _ _ _ hle => exact ⟨hle, by decide⟩

/-- The layout of an image gives each token its cell. -/
theorem Layout.cellOf {tokens ts : List Token} {cs : List Cell} (h : Layout tokens ts cs) {i : Nat} {t : Token}
    (ht : ts[i]? = some t) : CellOf tokens ts cs i t := by
  induction h generalizing i with
  | nil => cases ht
  | inert hm hshape _ ih =>
    cases i with
    | zero => cases ht; exact .inert hm hshape rfl
    | succ i => exact (ih ht).cons _ _
  | implied hr hname hf _ ih =>
    cases i with
    | zero => cases ht; cases hname; exact .implied hr hf rfl
    | succ i => exact (ih ht).cons _ _
  | operand hr hname hm hdenotes _ ih =>
    match i with
    | 0 => cases ht; cases hname; exact .record hr rfl hdenotes rfl
    | 1 => cases ht; exact .operand rfl ⟨_, hr, hname, hdenotes.le_and_ne_implied.2⟩ hm rfl
    | i + 2 => exact ((ih ht).cons _ _).cons _ _

/-- The cell of a token of the text is the one that R61 places, and an operand token has its mnemonic before it. -/
theorem CellOf.placedAt {tokens : List Token} {image : List Cell} {i : Nat} {t : Token}
    (h : CellOf tokens (emitted tokens) image i t) :
    PlacedAt tokens image i t ∧ (OperandShaped t → ∃ j m, i = j + 1 ∧ (emitted tokens)[j]? = some m ∧ TakesOperand m) := by
  cases h with
  | inert hm hshape hcell => exact ⟨⟨fun h => absurd h hm, fun _ => hcell⟩, fun h => absurd h hshape⟩
  | implied hr hf hcell =>
    have hm : IsMnemonic _ := ⟨_, hr, rfl⟩
    exact ⟨⟨fun _ => ⟨_, hr, rfl, .inl ⟨hf, hcell⟩⟩, fun h => absurd hm h⟩,
      fun h => absurd h (not_operandShaped_of_isMnemonic hm)⟩
  | record hr ho hdenotes hcell =>
    have hm : IsMnemonic _ := ⟨_, hr, rfl⟩
    exact ⟨⟨fun _ => ⟨_, hr, rfl, .inr ⟨_, _, ho, hdenotes, hcell⟩⟩, fun h => absurd hm h⟩,
      fun h => absurd h (not_operandShaped_of_isMnemonic hm)⟩
  | operand hm htakes ht hcell => exact ⟨⟨fun h => absurd h ht, fun _ => hcell⟩, fun _ => ⟨_, _, rfl, hm, htakes⟩⟩

/-! ### The cells of an image -/

/-- A record of a row is that of an instruction, where the value is 0 in format N (R49, R52). -/
theorem encode_make {r : OpcodeRow} (hr : r ∈ opcodeMap) {v : Int} (hv : r.format = .implied → v = 0) :
    encode (r.make v) = ⟨.record, r.op, v⟩ := by
  obtain ⟨hop, hoperand⟩ := op_and_operand_of_row hr v
  rw [encode, hop, hoperand]
  split
  · next hf => rw [hv hf]; rfl
  · rfl

/-- A row makes an instruction with a 16-bit operand of a 16-bit value (R48). -/
theorem assembled_make {r : OpcodeRow} (hr : r ∈ opcodeMap) {v : Nat} (hv : v ≤ 0xFFFF) : (r.make v).assembled = true := by
  rw [Instr.assembled, (op_and_operand_of_row hr v).2]
  split
  · rfl
  · simpa using hv

/-- A cell the assembler may emit: the empty cell or the record of an instruction with a 16-bit operand (R48, R61). -/
def Emittable (c : Cell) : Prop := c = Cell.empty ∨ ∃ i, decode c = .ok i ∧ c = encode i ∧ i.assembled = true

theorem emittable_row {r : OpcodeRow} (hr : r ∈ opcodeMap) {v : Nat} (hv : v ≤ 0xFFFF) (hn : r.format = .implied → v = 0) :
    Emittable ⟨.record, r.op, v⟩ :=
  .inr ⟨r.make v, decode_row hr v, (encode_make hr fun hf => by rw [hn hf]; rfl).symm, assembled_make hr hv⟩

/-- A laid-out image has one cell for each token (R61). -/
theorem Layout.length_eq {tokens ts : List Token} {cs : List Cell} (h : Layout tokens ts cs) : cs.length = ts.length := by
  induction h with
  | nil => rfl
  | inert _ _ _ ih | implied _ _ _ _ ih => exact congrArg (· + 1) ih
  | operand _ _ _ _ _ ih => exact congrArg (· + 2) ih

theorem Layout.emittable {tokens ts : List Token} {cs : List Cell} (h : Layout tokens ts cs) : ∀ c ∈ cs, Emittable c := by
  induction h with
  | nil => exact List.forall_mem_nil _
  | inert _ _ _ ih => exact List.forall_mem_cons.2 ⟨.inl rfl, ih⟩
  | implied hr _ _ _ ih => exact List.forall_mem_cons.2 ⟨emittable_row (v := 0) hr (Nat.zero_le _) fun _ => rfl, ih⟩
  | operand hr _ _ hdenotes _ ih =>
    obtain ⟨hle, hf⟩ := hdenotes.le_and_ne_implied
    exact List.forall_mem_cons.2 ⟨emittable_row hr hle fun h => absurd h hf, List.forall_mem_cons.2 ⟨.inl rfl, ih⟩⟩

/-! ### The obligations -/

/-- The assembler is the length check and then pass 2 on the label-stripped stream (R58, R61). -/
theorem assembleTokens_eq (tokens : List Token) :
    assembleTokens tokens = if memSize < (emitted tokens).length then .error .tooLong
      else encodePass (labelPass tokens 0 []).2 (emitted tokens) := by
  rw [assembleTokens, labelPass_emitted]

/-- The assembler answers an image of a layout that fits memory or an error with its cause. -/
theorem answers_assembleTokens {tokens : List Token} {answer : Except AsmError (List Cell)}
    (h : assembleTokens tokens = answer) : Answers tokens (emitted tokens) answer := by
  rw [← h, assembleTokens_eq]
  split
  · next hlong => exact hlong
  · exact answers_encodePass tokens _

theorem length_le_of_not_tooLong {tokens : List Token} (h : assembleTokens tokens ≠ .error .tooLong) :
    (emitted tokens).length ≤ memSize := by
  by_contra hlong
  exact h (by rw [assembleTokens_eq, if_pos (not_le.1 hlong)])

/-- Settles O51, from the layout of the answered image. -/
theorem assembledImageHasRuleR61Layout : Obligations.AssembledImageHasRuleR61Layout := by
  unfold Obligations.AssembledImageHasRuleR61Layout
  intro tokens image h
  have hlayout : Layout tokens (emitted tokens) image := answers_assembleTokens h
  have hle : (emitted tokens).length ≤ memSize := length_le_of_not_tooLong (by simp [h])
  exact ⟨hlayout.length_eq, hlayout.length_eq.trans_le hle, hlayout.emittable, fun _ _ ht => (hlayout.cellOf ht).placedAt⟩

/-- In a text that fits memory only the label at the end of a full one has a value past 16 bits (R55). -/
theorem LabelIndex.eq_memSize {tokens : List Token} {name : List Char} {v : Nat} (h : LabelIndex tokens name v)
    (hv : 0xFFFF < v) (hle : (emitted tokens).length ≤ memSize) : v = memSize ∧ (emitted tokens).length = memSize := by
  have hindex := h.le_length
  unfold memSize at *
  omega

/-- Settles O54, from the cause of the answered error. -/
theorem assemblerRefusesOnlyForANamedCause : Obligations.AssemblerRefusesOnlyForANamedCause := by
  unfold Obligations.AssemblerRefusesOnlyForANamedCause
  intro tokens e h
  have hcause : HasCause tokens (emitted tokens) e := answers_assembleTokens h
  cases e with
  | labelPastEnd name =>
    obtain ⟨hmem, hname, v, hindex, hv⟩ := hcause
    obtain ⟨rfl, hlength⟩ := hindex.eq_memSize hv (length_le_of_not_tooLong (by simp [h]))
    exact ⟨hmem, hname, hindex, hlength⟩
  | unresolvedLabel | strayOperand | operandOfImplied | modeLacking | missingOperand | badHex | tooLong => exact hcause

/-- Settles O52. -/
theorem workedExampleAssembles : Obligations.WorkedExampleAssembles := by
  unfold Obligations.WorkedExampleAssembles
  decide

end Sys2Proof.Machine
end

section
/-! SUPPORT. The claims about the execution cycle (spec/40_execution_cycle.md R70 to R77): what a step of a Running state is, the
faults' precision, and runs over data cells. -/

namespace Sys2Proof.Machine

/-! ### What a step of a Running state is -/

/-- The fetched cell's instruction is dispatched (R70). -/
theorem step_of_decode {s : State} {i : Instr} (hrun : s.runState = .running) (hi : decode (fetch s) = .ok i) :
    step s = exec i s := by
  simp only [step, cycle, hrun, hi]

/-- A cell that holds no instruction is stepped over (R72). -/
theorem step_of_undecoded {s : State} {e : Undecoded} (hrun : s.runState = .running) (he : decode (fetch s) = .error e) :
    step s = .next s.advance := by
  simp only [step, cycle, hrun, he, execNoOp]

/-- Settles O28. -/
theorem stepRunsDecodedInstruction : Obligations.StepRunsDecodedInstruction :=
  fun _ _ => step_of_decode

/-- Settles O7. -/
theorem dataAndUnassignedCellsAreNoOps : Obligations.DataAndUnassignedCellsAreNoOps := by
  unfold Obligations.DataAndUnassignedCellsAreNoOps
  refine fun s hrun => ⟨step_of_data hrun, fun hkind hop => step_of_undecoded hrun (e := .unassigned (fetch s).op) ?_⟩
  have hcell : fetch s = ⟨.record, (fetch s).op, (fetch s).val⟩ := by rw [← hkind]
  rw [hcell]
  exact decode_unassigned hop _

/-- Settles O31: a step of a Running state is an instruction or the no-op, and a stopped state has none. -/
theorem runningStatesHaveOneSuccessor : Obligations.RunningStatesHaveOneSuccessor := by
  unfold Obligations.RunningStatesHaveOneSuccessor
  exact ⟨fun s => ⟨step_next_of_running, fun ⟨_, hstep⟩ => (step_cases hstep).1⟩, exec_next⟩

/-- Settles O12: with H set the run state is Halted, whatever PC is. -/
theorem haltSetsHAndStops : Obligations.HaltSetsHAndStops := by
  unfold Obligations.HaltSetsHAndStops
  refine ⟨fun _ => rfl, fun s => ⟨rfl, fun hfc => ?_⟩⟩
  obtain ⟨-, hhalted, -⟩ := stopsExactlyWhenNotRunning { s with h := true, pc := s.pc + 1 }
  exact (hhalted hfc rfl).2

/-! ### The placed cell -/

/-- Placing a cell changes memory alone (R192, R201). -/
theorem loadCell_eq (s : State) (a : Nat) (c : Cell) : loadCell s a c = { s with mem := (loadCell s a c).mem } := by
  unfold loadCell
  split <;> rfl

theorem read_loadCell_same {s : State} {a : Nat} (c : Cell) (ha : a < memSize) :
    Memory.read (loadCell s a c).mem a = c := by
  rw [loadCell, if_pos ha]
  exact Memory.read_write_same _ _ _

theorem read_loadCell_other (s : State) {a b : Nat} (c : Cell) (hb : b ≠ a) :
    Memory.read (loadCell s a c).mem b = Memory.read s.mem b := by
  unfold loadCell
  split
  · exact Memory.read_write_other _ _ hb
  · rfl

@[simp] theorem loadCell_pc (s : State) (a : Nat) (c : Cell) : (loadCell s a c).pc = s.pc := by rw [loadCell_eq]

/-- The run state does not depend on memory (R19). -/
@[simp] theorem runState_loadCell (s : State) (a : Nat) (c : Cell) : (loadCell s a c).runState = s.runState := by
  rw [loadCell_eq]
  rfl

theorem fetch_loadCell_pc {s : State} (c : Cell) (hpc : s.pc < memSize) : fetch (loadCell s s.pc c) = c := by
  rw [fetch, loadCell_pc, read_loadCell_same c hpc]

theorem decode_of_decodeTableWord {nbits w : Nat} {i : Instr} (h : decodeTableWord nbits w = some i) :
    decode (Cell.ofWord (w % 2 ^ nbits : Nat)) = .ok i := by
  unfold decodeTableWord at h
  cases hd : decode (Cell.ofWord (w % 2 ^ nbits : Nat)) with
  | ok j => rw [hd] at h; cases h; rfl
  | error e => rw [hd] at h; cases h

/-- Settles O29: the placed cell is the one fetched, since a Running state has its PC inside memory. -/
theorem placedInstructionRunsNext : Obligations.PlacedInstructionRunsNext := by
  unfold Obligations.PlacedInstructionRunsNext State.withFetchWord
  refine ⟨fun s nbits w i hrun hi => step_of_decode ?_ ?_,
    fun s _ _ => ⟨fun _ => read_loadCell_other s _, loadCell_eq s _ _⟩, by decide, rfl⟩
  · rwa [runState_loadCell]
  · obtain ⟨-, -, hpc⟩ := (runState_eq_running_iff s).1 hrun
    rw [fetch_loadCell_pc _ hpc]
    exact decode_of_decodeTableWord hi

/-! ### Indexed operands -/

/-- Settles O46: an indexed form and the direct form of its family are one operation, on the source or the address that the
format gives, and format X gives what format D gives at `VAL + X` (`eaIndexed`, R73). -/
theorem indexedActsAsDirectAtEA : Obligations.IndexedActsAsDirectAtEA :=
  fun _ _ => ⟨rfl, rfl, rfl, rfl, rfl, rfl, rfl, rfl, rfl, rfl, rfl, rfl, rfl⟩

/-! ### Precise faults -/

/-- Of the kinds of effect only the recorded fault writes FC (R75). -/
theorem Effect.eq_raise_of_fc_ne {cfg : Config} {i : Instr} {s t : State} (h : Effect cfg i s t) (hfc : t.fc ≠ s.fc) :
    ∃ r, t = s.raise r := by
  cases h with
  | fault r => exact ⟨r, rfl⟩
  | written | popped => simp at hfc
  | stored | pushed | compared | halted | untaken | jumped | called | returned => exact absurd rfl hfc

/-- Settles O40. -/
theorem faultsArePrecise : Obligations.FaultsArePrecise := by
  unfold Obligations.FaultsArePrecise
  intro i s t hs hexec ht
  obtain ⟨r, rfl⟩ := (effect_of_exec hexec).eq_raise_of_fc_ne (hs ▸ ht)
  exact ⟨r, rfl, rfl⟩

/-! ### Runs over data cells -/

/-- A run goes on from where its first steps lead (R76). -/
theorem run_add_of_steps {k : Nat} {s t : State} (h : steps k s = .next t) (m : Nat) : run (k + m) s = run m t := by
  induction k generalizing s with
  | zero => cases h; rw [Nat.zero_add]
  | succ k ih =>
    rw [steps] at h
    split at h
    · rename_i u hu
      rw [← ih h, Nat.succ_add, run, runWith, hu]
      rfl
    · cases h
    · cases h

/-- A run from a Halted state ends in it, whatever the fuel (R71). -/
theorem run_of_halted {s : State} (h : s.runState = .halted) (m : Nat) : run m s = .halted s := by
  have hresult : runResult s = .halted s := by rw [runResult, h]
  cases m with
  | zero => exact hresult
  | succ m => rw [run, runWith, step_of_halted h]; exact hresult

/-- An unstopped engine with nothing but data cells from PC to the end of memory. -/
structure DataAhead (s : State) : Prop where
  fc : s.fc = .none
  h : s.h = false
  data : ∀ a, s.pc ≤ a → a < memSize → (Memory.read s.mem a).kind = .data

namespace DataAhead

variable {s : State}

theorem advance (hs : DataAhead s) : DataAhead s.advance where
  fc := hs.fc
  h := hs.h
  data a hle hlt := hs.data a (Nat.le_of_succ_le hle) hlt

theorem step_eq (hs : DataAhead s) (hpc : s.pc < memSize) : step s = .next s.advance :=
  step_of_data ((runState_eq_running_iff s).2 ⟨hs.fc, hs.h, hpc⟩) (hs.data s.pc le_rfl hpc)

/-- Each step up to the end of memory advances PC and keeps everything else (R72). -/
theorem steps_eq {k : Nat} (hs : DataAhead s) (hk : s.pc + k ≤ memSize) : steps k s = .next { s with pc := s.pc + k } := by
  induction k generalizing s with
  | zero => rfl
  | succ k ih =>
    have hrest : steps k s.advance = .next { s with pc := s.pc + 1 + k } :=
      ih hs.advance (by simp only [State.advance_pc]; omega)
    rw [steps, hs.step_eq (by omega), Nat.add_comm k 1, ← Nat.add_assoc]
    exact hrest

end DataAhead

/-- Settles O49: the walk to the end of memory, where the engine is Halted by its PC alone. -/
theorem dataCellsWalkToEndOfMemory : Obligations.DataCellsWalkToEndOfMemory := by
  unfold Obligations.DataCellsWalkToEndOfMemory
  intro s hfc hh hpc hdata
  have hs : DataAhead s := ⟨hfc, hh, hdata⟩
  refine ⟨fun k => hs.steps_eq, fun k hk => ?_⟩
  obtain ⟨n, hn⟩ := Nat.exists_eq_add_of_le hpc
  obtain ⟨m, rfl⟩ : ∃ m, k = n + m := Nat.exists_eq_add_of_le (by omega)
  have hwalk : steps n s = .next { s with pc := memSize } := by rw [hs.steps_eq hn.ge, ← hn]
  have hend : ({ s with pc := memSize } : State).runState = .halted := by simp [State.runState, hfc]
  rw [run_add_of_steps hwalk, run_of_halted hend]

end Sys2Proof.Machine
end

section
/-! SUPPORT. The claims about the register operations (spec/41_register_ops.md R80 to R90): a checked write of one register, and
the flags of `cmp`. -/

namespace Sys2Proof.Machine

/-! ### Writes of one register -/

/-- An instruction that writes a value its `VW` holds completes (R74). -/
theorem finish_writeReg_of_fits {cfg : Config} {v : Int} (h : cfg.fits v = true) (r : Reg) (s : State) :
    finish s (writeReg cfg r v s) = .next { s.setReg r v with pc := s.pc + 1 } := by
  rw [writeReg_eq, if_pos h, finish_ok, State.advance, State.setReg_pc]

/-- An instruction that writes a value its `VW` cannot hold records `ValueRange` (R183). -/
theorem finish_writeReg_of_not_fits {cfg : Config} {v : Int} (h : cfg.fits v = false) (r : Reg) (s : State) :
    finish s (writeReg cfg r v s) = .next (s.raise (.valueRange v)) := by
  rw [writeReg_eq, h, if_neg Bool.false_ne_true, finish_error]

/-- An instruction that ends in one checked register write has the shape of the register rules. -/
theorem writesValue_of_finish_writeReg {i : Instr} {value : State → Int} {r : Reg}
    (h : ∀ cfg s, execIn cfg i s = finish s (writeReg cfg r (value s) s)) :
    WritesValue i value (fun s v => s.setReg r v) := by
  intro s
  rw [← execIn_chip]
  simp only [h]
  exact ⟨fun hfits => finish_writeReg_of_fits hfits r s, fun _ hrange => finish_writeReg_of_not_fits hrange r s⟩

/-- Settles O8. -/
theorem addAndSubWriteB : Obligations.AddAndSubWriteB := by
  unfold Obligations.AddAndSubWriteB
  exact ⟨fun _ => rfl, writesValue_of_finish_writeReg (r := .b) fun _ _ => rfl,
    fun _ => rfl, writesValue_of_finish_writeReg (r := .b) fun _ _ => rfl⟩

/-- Settles O9. -/
theorem incrementsAndDecrementsAreExact : Obligations.IncrementsAndDecrementsAreExact := by
  unfold Obligations.IncrementsAndDecrementsAreExact
  exact ⟨fun _ => rfl, writesValue_of_finish_writeReg (r := .a) fun _ _ => rfl,
    fun _ => rfl, writesValue_of_finish_writeReg (r := .b) fun _ _ => rfl,
    fun _ => rfl, writesValue_of_finish_writeReg (r := .a) fun _ _ => rfl,
    fun _ => rfl, writesValue_of_finish_writeReg (r := .b) fun _ _ => rfl,
    fun _ => rfl, writesValue_of_finish_writeReg (r := .x) fun _ _ => rfl,
    fun _ => rfl, writesValue_of_finish_writeReg (r := .x) fun _ _ => rfl⟩

/-- Settles O10: the complement of a value that `VW` holds is one that it holds, so the write completes. -/
theorem invertFlipsEveryBit : Obligations.InvertFlipsEveryBit := by
  unfold Obligations.InvertFlipsEveryBit
  exact ⟨fun _ => rfl, fun s hfits => finish_writeReg_of_fits (fits_bitNot hfits) .a s,
    fun _ => rfl, fun s hfits => finish_writeReg_of_fits (fits_bitNot hfits) .b s, valueBit_bitNot⟩

/-! ### The flags of `cmp` -/

/-- Z is set by equality (R90). -/
theorem compareFlags_z_iff (s : State) : (compareFlags s).z = true ↔ s.z = true ∨ s.a = s.b := by
  simp [compareFlags, sub_eq_zero]

/-- G is set where A is the greater (R90). -/
theorem compareFlags_g_iff (s : State) : (compareFlags s).g = true ↔ s.g = true ∨ s.b < s.a := by
  simp [compareFlags]

/-- L is set where A is the less (R90). -/
theorem compareFlags_l_iff (s : State) : (compareFlags s).l = true ↔ s.l = true ∨ s.a < s.b := by
  simp [compareFlags]

/-- Settles O11. -/
theorem compareSetsStickyFlags : Obligations.CompareSetsStickyFlags := by
  unfold Obligations.CompareSetsStickyFlags
  exact ⟨fun _ => rfl, fun s => ⟨(compareFlags s).advance, rfl, compareFlags_z_iff s, compareFlags_g_iff s,
    compareFlags_l_iff s, rfl⟩⟩

end Sys2Proof.Machine
end

section
/-! SUPPORT. The claims about loads and stores (spec/42_load_store.md R100 to R111): a checked register write of what a memory
source holds, and a checked write of one cell. -/

namespace Sys2Proof.Machine

/-! ### Loads -/

/-- Settles O13: a literal is a source that never faults, and 17 bits hold every assembled one. -/
theorem loadImmediateLoadsTheLiteral : Obligations.LoadImmediateLoadsTheLiteral := by
  unfold Obligations.LoadImmediateLoadsTheLiteral
  exact ⟨fun _ => rfl, fun _ => writesValue_of_finish_writeReg (r := .a) fun _ _ => rfl,
    fun _ => rfl, fun _ => writesValue_of_finish_writeReg (r := .b) fun _ _ => rfl,
    fun _ => rfl, fun _ => writesValue_of_finish_writeReg (r := .x) fun _ _ => rfl,
    fun _ => rfl, fun _ => writesValue_of_finish_writeReg (r := .sp) fun _ _ => rfl,
    fun _ h₀ h₁ => fits_of_17 _ (by omega) h₁⟩

/-- An instruction that combines a register with the cell at `ea` has the shape of the memory source rules. -/
theorem writesFromSource_of_finish_accumulate {i : Instr} {ea : State → Int} {r : Reg} {f : Int → Int → Int}
    (h : ∀ cfg s, execIn cfg i s = finish s (accumulate cfg r f (memRead s (ea s)) s)) :
    WritesFromSource i ea (fun s v => f (s.reg r) v) (fun s v => s.setReg r v) := by
  intro s
  rw [← execIn_chip]
  simp only [h]
  refine ⟨fun hout => ?_, fun hrecord => ?_, fun hread hfits => ?_, fun cfg hread hrange => ?_⟩
  · rw [memRead_of_not_inRange hout, accumulate_error, finish_error]
  · rw [memRead_of_holdsRecord hrecord, accumulate_error, finish_error]
  · rw [memRead_of_readable hread, accumulate_ok, finish_writeReg_of_fits hfits]
  · rw [memRead_of_readable hread, accumulate_ok, finish_writeReg_of_not_fits hrange]

/-- A load is the combination that drops the register's old value. -/
theorem writesFromSource_of_finish_loadReg {i : Instr} {ea : State → Int} {r : Reg}
    (h : ∀ cfg s, execIn cfg i s = finish s (loadReg cfg r (memRead s (ea s)) s)) :
    WritesFromSource i ea (fun _ v => v) (fun s v => s.setReg r v) :=
  writesFromSource_of_finish_accumulate (f := fun _ v => v) h

/-- Settles O14. -/
theorem loadsReadMemory : Obligations.LoadsReadMemory := by
  unfold Obligations.LoadsReadMemory
  exact ⟨fun _ => rfl, fun _ => writesFromSource_of_finish_loadReg (r := .a) fun _ _ => rfl,
    fun _ => rfl, fun _ => writesFromSource_of_finish_loadReg (r := .a) fun _ _ => rfl,
    fun _ => rfl, fun _ => writesFromSource_of_finish_loadReg (r := .b) fun _ _ => rfl,
    fun _ => rfl, fun _ => writesFromSource_of_finish_loadReg (r := .b) fun _ _ => rfl⟩

/-! ### Stores -/

/-- An instruction that writes a cell outside memory records `AddressOutOfRange` (R35). -/
theorem finish_memWrite_of_not_inRange {a : Int} (ha : inRange a = false) (cfg : Config) (v : Int) (s t : State) :
    finish s (memWrite cfg a v t) = .next (s.raise (.addressOutOfRange a)) := by
  rw [memWrite_eq, ha, if_neg Bool.false_ne_true, finish_error]

/-- An instruction that writes a cell with a value its `VW` holds completes, with no cell but that one changed (R35). -/
theorem finish_memWrite_of_fits {cfg : Config} {a v : Int} (ha : inRange a = true) (hv : cfg.fits v = true) (sp' : Int)
    (s : State) : ∃ t, finish s (memWrite cfg a v { s with sp := sp' }) = .next t ∧ StoredAt s t a v sp' := by
  rw [memWrite_eq, if_pos ha, if_pos hv, finish_ok]
  exact ⟨_, rfl, Memory.read_write_same _ _ _, fun _ hb => Memory.read_write_other _ _ hb, rfl⟩

/-- An instruction that writes a cell with a value its `VW` cannot hold records `ValueRange` (R183). -/
theorem finish_memWrite_of_not_fits {cfg : Config} {a v : Int} (ha : inRange a = true) (hv : cfg.fits v = false)
    (s t : State) : finish s (memWrite cfg a v t) = .next (s.raise (.valueRange v)) := by
  rw [memWrite_eq, if_pos ha, hv, if_neg Bool.false_ne_true, finish_error]

/-- An instruction that ends in one checked write of a cell has the shape of the store rules. -/
theorem stores_of_finish_memWrite {i : Instr} {ea value : State → Int}
    (h : ∀ cfg s, execIn cfg i s = finish s (memWrite cfg (ea s) (value s) s)) : Stores i ea value := by
  intro s
  rw [← execIn_chip]
  simp only [h]
  exact ⟨fun hout => finish_memWrite_of_not_inRange hout _ _ s s,
    fun hin hfits => finish_memWrite_of_fits hin hfits s.sp s,
    fun _ hin hrange => finish_memWrite_of_not_fits hin hrange s s⟩

/-- Settles O15. -/
theorem storesWriteOneDataCell : Obligations.StoresWriteOneDataCell := by
  unfold Obligations.StoresWriteOneDataCell
  exact ⟨fun _ => rfl, fun _ => stores_of_finish_memWrite fun _ _ => rfl,
    fun _ => rfl, fun _ => stores_of_finish_memWrite fun _ _ => rfl,
    fun _ => rfl, fun _ => stores_of_finish_memWrite fun _ _ => rfl,
    fun _ => rfl, fun _ => stores_of_finish_memWrite fun _ _ => rfl⟩

end Sys2Proof.Machine
end

section
/-! SUPPORT. The claims about accumulator arithmetic and logic with an operand (spec/43_operand_arith_logic.md R120 to R143): the
accumulator that `SUBI_ALIAS` selects, and bitwise writes, which no `VW` refuses. -/

namespace Sys2Proof.Machine

/-! ### Subtraction of a literal -/

/-- An instruction that ends in one checked register write completes or records `ValueRange` (R74, R183). -/
theorem finish_writeReg_eq (cfg : Config) (r : Reg) (v : Int) (s : State) :
    finish s (writeReg cfg r v s) =
      .next (if cfg.fits v = true then { s.setReg r v with pc := s.pc + 1 } else s.raise (.valueRange v)) := by
  by_cases h : cfg.fits v = true
  · rw [if_pos h, finish_writeReg_of_fits h]
  · rw [if_neg h, finish_writeReg_of_not_fits (Bool.eq_false_iff.2 h)]

/-- `suba` immediate subtracts its literal from the accumulator it works on (R126). -/
theorem execIn_subaImm_of_target {cfg : Config} {r : Reg} (h : subaImmTarget cfg = r) (v : Int) (s : State) :
    execIn cfg (.subaImm v) s = finish s (writeReg cfg r (s.reg r - v) s) := by
  subst h
  rfl

/-- `subb` immediate subtracts its literal from the accumulator it works on (R129). -/
theorem execIn_subbImm_of_target {cfg : Config} {r : Reg} (h : subbImmTarget cfg = r) (v : Int) (s : State) :
    execIn cfg (.subbImm v) s = finish s (writeReg cfg r (s.reg r - v) s) := by
  subst h
  rfl

/-- Settles O18: `SUBI_ALIAS` selects the accumulator, and what follows is one checked register write. -/
theorem subtractImmediateFollowsAlias : Obligations.SubtractImmediateFollowsAlias := by
  unfold Obligations.SubtractImmediateFollowsAlias
  refine ⟨fun _ => rfl, fun _ => rfl, fun cfg v s => ⟨fun h => ?_, fun h => ?_, fun h => ?_, fun h => ?_⟩,
    fun v s hA hB => ?_⟩
  · exact (execIn_subaImm_of_target (if_pos h) v s).trans (finish_writeReg_eq cfg .b _ s)
  · exact (execIn_subaImm_of_target (if_neg h) v s).trans (finish_writeReg_eq cfg .a _ s)
  · exact (execIn_subbImm_of_target (if_pos h) v s).trans (finish_writeReg_eq cfg .a _ s)
  · exact (execIn_subbImm_of_target (if_neg h) v s).trans (finish_writeReg_eq cfg .b _ s)
  · rw [← execIn_chip, ← execIn_chip]
    constructor
    · split
      case isTrue h => exact (execIn_subaImm_of_target (if_pos h) v s).trans (finish_writeReg_of_fits hB .b s)
      case isFalse h => exact (execIn_subaImm_of_target (if_neg h) v s).trans (finish_writeReg_of_fits hA .a s)
    · split
      case isTrue h => exact (execIn_subbImm_of_target (if_pos h) v s).trans (finish_writeReg_of_fits hA .a s)
      case isFalse h => exact (execIn_subbImm_of_target (if_neg h) v s).trans (finish_writeReg_of_fits hB .b s)

/-! ### Bitwise operations -/

/-- `op` acts on each bit as `f` does, and a `VW` that holds both operands holds the result. -/
structure ActsBitwise (op : Int → Int → Int) (f : Bool → Bool → Bool) : Prop where
  bits : ∀ v w, BitsOf f (op v w) v w
  fits : ∀ {cfg : Config} {v w : Int}, cfg.fits v = true → cfg.fits w = true → cfg.fits (op v w) = true

theorem actsBitwise_bitAnd : ActsBitwise bitAnd and := ⟨valueBit_bitAnd, fits_bitAnd⟩

theorem actsBitwise_bitOr : ActsBitwise bitOr or := ⟨valueBit_bitOr, fits_bitOr⟩

namespace ActsBitwise

variable {op : Int → Int → Int} {f : Bool → Bool → Bool} {r : Reg}

/-- An instruction that combines a register bitwise with its literal has the shape of the literal rules. -/
theorem combinesLiteral (hop : ActsBitwise op f) {i : Int → Instr}
    (h : ∀ cfg v s, execIn cfg (i v) s = finish s (writeReg cfg r (op (s.reg r) v) s)) :
    CombinesLiteral i f (fun s => s.reg r) (fun s v => s.setReg r v) := by
  intro v s hold hv
  rw [← execIn_chip, h]
  exact ⟨_, hop.bits _ _, finish_writeReg_of_fits (hop.fits hold hv) r s⟩

/-- An instruction that combines a register bitwise with the cell at `ea` has the shape of the memory source rules. -/
theorem combinesSource (hop : ActsBitwise op f) {i : Instr} {ea : State → Int}
    (h : ∀ cfg s, execIn cfg i s = finish s (accumulate cfg r op (memRead s (ea s)) s)) :
    CombinesSource i ea f (fun s => s.reg r) (fun s v => s.setReg r v) := by
  intro s
  obtain ⟨hout, hrecord, hwrites, -⟩ := writesFromSource_of_finish_accumulate h s
  exact ⟨hout, hrecord, fun hread hold hcell => ⟨_, hop.bits _ _, hwrites hread (hop.fits hold hcell)⟩⟩

end ActsBitwise

/-- Settles O19. -/
theorem andCombinesBitwise : Obligations.AndCombinesBitwise := by
  unfold Obligations.AndCombinesBitwise
  exact ⟨fun _ => rfl, actsBitwise_bitAnd.combinesLiteral (r := .a) fun _ _ _ => rfl,
    fun _ => rfl, fun _ => actsBitwise_bitAnd.combinesSource (r := .a) fun _ _ => rfl,
    fun _ => rfl, fun _ => actsBitwise_bitAnd.combinesSource (r := .a) fun _ _ => rfl,
    fun _ => rfl, actsBitwise_bitAnd.combinesLiteral (r := .b) fun _ _ _ => rfl,
    fun _ => rfl, fun _ => actsBitwise_bitAnd.combinesSource (r := .b) fun _ _ => rfl,
    fun _ => rfl, fun _ => actsBitwise_bitAnd.combinesSource (r := .b) fun _ _ => rfl⟩

/-- Settles O20. -/
theorem orCombinesBitwise : Obligations.OrCombinesBitwise := by
  unfold Obligations.OrCombinesBitwise
  exact ⟨fun _ => rfl, actsBitwise_bitOr.combinesLiteral (r := .a) fun _ _ _ => rfl,
    fun _ => rfl, fun _ => actsBitwise_bitOr.combinesSource (r := .a) fun _ _ => rfl,
    fun _ => rfl, fun _ => actsBitwise_bitOr.combinesSource (r := .a) fun _ _ => rfl,
    fun _ => rfl, actsBitwise_bitOr.combinesLiteral (r := .b) fun _ _ _ => rfl,
    fun _ => rfl, fun _ => actsBitwise_bitOr.combinesSource (r := .b) fun _ _ => rfl,
    fun _ => rfl, fun _ => actsBitwise_bitOr.combinesSource (r := .b) fun _ _ => rfl⟩

/-! ### Addition, and subtraction of a cell -/

/-- Settles O16. -/
theorem addWithOperandIsExact : Obligations.AddWithOperandIsExact := by
  unfold Obligations.AddWithOperandIsExact
  exact ⟨fun _ => rfl, fun _ => writesValue_of_finish_writeReg (r := .a) fun _ _ => rfl,
    fun _ => rfl, fun _ => writesValue_of_finish_writeReg (r := .b) fun _ _ => rfl,
    fun _ => rfl, fun _ => writesFromSource_of_finish_accumulate (r := .a) (f := (· + ·)) fun _ _ => rfl,
    fun _ => rfl, fun _ => writesFromSource_of_finish_accumulate (r := .a) (f := (· + ·)) fun _ _ => rfl,
    fun _ => rfl, fun _ => writesFromSource_of_finish_accumulate (r := .b) (f := (· + ·)) fun _ _ => rfl,
    fun _ => rfl, fun _ => writesFromSource_of_finish_accumulate (r := .b) (f := (· + ·)) fun _ _ => rfl⟩

/-- Settles O17. -/
theorem subtractFromMemoryIsExact : Obligations.SubtractFromMemoryIsExact := by
  unfold Obligations.SubtractFromMemoryIsExact
  exact ⟨fun _ => rfl, fun _ => writesFromSource_of_finish_accumulate (r := .a) (f := (· - ·)) fun _ _ => rfl,
    fun _ => rfl, fun _ => writesFromSource_of_finish_accumulate (r := .a) (f := (· - ·)) fun _ _ => rfl,
    fun _ => rfl, fun _ => writesFromSource_of_finish_accumulate (r := .b) (f := (· - ·)) fun _ _ => rfl,
    fun _ => rfl, fun _ => writesFromSource_of_finish_accumulate (r := .b) (f := (· - ·)) fun _ _ => rfl⟩

end Sys2Proof.Machine
end

section
/-! SUPPORT. The claims about the stack (spec/44_stack.md R150 to R156): a push is a data write below SP, a pop is a data read at SP
with two register writes. -/

namespace Sys2Proof.Machine

/-! ### Pushes -/

/-- An instruction that pushes a value has the shape of the push rules (R13, R150). -/
theorem pushesValue_of_finish_push {i : Instr} {value : State → Int}
    (h : ∀ cfg s, execIn cfg i s = finish s (push cfg (.ok (value s)) s)) : PushesValue i value := by
  intro s
  rw [← execIn_chip]
  simp only [h, push_ok_eq_memWrite]
  exact ⟨fun hout => finish_memWrite_of_not_inRange hout _ _ s _,
    fun hin hfits => finish_memWrite_of_fits hin hfits _ s,
    fun _ hin hrange => finish_memWrite_of_not_fits hin hrange s _⟩

/-- An instruction that pushes the cell at `ea` has the shape of the memory push rules (R153, R154, R185). -/
theorem pushesSource_of_finish_push {i : Instr} {ea : State → Int}
    (h : ∀ cfg s, execIn cfg i s = finish s (push cfg (memRead s (ea s)) s)) : PushesSource i ea := by
  intro s
  rw [← execIn_chip]
  simp only [h]
  refine ⟨fun hout => ?_, fun hrecord => ?_, fun hread hout => ?_, fun hread hin hfits => ?_,
    fun cfg hread hin hrange => ?_⟩
  · rw [memRead_of_not_inRange hout, push_error, finish_error]
  · rw [memRead_of_holdsRecord hrecord, push_error, finish_error]
  · rw [push_memRead_eq_memWrite hread, finish_memWrite_of_not_inRange hout]
  · rw [push_memRead_eq_memWrite hread]
    exact finish_memWrite_of_fits hin hfits _ s
  · rw [push_memRead_eq_memWrite hread, finish_memWrite_of_not_fits hin hrange]

theorem pushesValue_psha : PushesValue .psha (fun s => s.a) := pushesValue_of_finish_push fun _ _ => rfl

/-- Settles O21: every push is the data write of its value at `SP - 1`, after the read of its source. -/
theorem pushesStoreBelowSP : Obligations.PushesStoreBelowSP := by
  unfold Obligations.PushesStoreBelowSP
  exact ⟨fun _ => rfl, pushesValue_psha,
    fun _ => rfl, pushesValue_of_finish_push fun _ _ => rfl,
    fun _ => rfl, fun _ => pushesValue_of_finish_push fun _ _ => rfl,
    fun _ => rfl, fun _ => pushesSource_of_finish_push fun _ _ => rfl,
    fun _ => rfl, fun _ => pushesSource_of_finish_push fun _ _ => rfl⟩

/-! ### Pops -/

/-- A pop of a readable cell checks and writes the popped value first, then `SP + 1` (R155, R156; log entry 9). -/
theorem pop_of_readable {r : Reg} {s : State} (hr : r ≠ .sp) (hread : Readable s s.sp) (cfg : Config) :
    pop cfg r s =
      if cfg.fits (contentAt s s.sp) = true then writeReg cfg .sp (s.sp + 1) (s.setReg r (contentAt s s.sp))
      else .error (.valueRange (contentAt s s.sp)) := by
  have hsp (v : Int) : (s.setReg r v).sp = s.sp := s.reg_setReg_of_ne v (Ne.symm hr)
  simp only [pop_eq, memRead_of_readable hread, writeReg_eq, hsp]

/-- A pop of a value that its `VW` cannot hold records `ValueRange` of it, whatever `SP + 1` is (R183; log entry 9). -/
theorem finish_pop_of_content_not_fits {cfg : Config} {r : Reg} {s : State} (hr : r ≠ .sp) (hread : Readable s s.sp)
    (hrange : cfg.fits (contentAt s s.sp) = false) :
    finish s (pop cfg r s) = .next (s.raise (.valueRange (contentAt s s.sp))) := by
  rw [pop_of_readable hr hread, hrange, if_neg Bool.false_ne_true, finish_error]

/-- An instruction that pops into an accumulator has the shape of the pop rules. -/
theorem popsInto_of_finish_pop {i : Instr} {r : Reg} (hr : r ≠ .sp)
    (h : ∀ cfg s, execIn cfg i s = finish s (pop cfg r s)) : PopsInto i (fun s v => s.setReg r v) := by
  intro s
  rw [← execIn_chip]
  simp only [h]
  refine ⟨fun hout => ?_, fun hrecord => ?_, fun hread hfits hfitsSp => ?_,
    fun cfg hread => ⟨fun hrange _ => finish_pop_of_content_not_fits hr hread hrange, fun hfits hrangeSp => ?_⟩⟩
  · rw [pop_eq, memRead_of_not_inRange hout, finish_error]
  · rw [pop_eq, memRead_of_holdsRecord hrecord, finish_error]
  · rw [pop_of_readable hr hread, if_pos hfits, writeReg_eq, if_pos hfitsSp, finish_ok, State.advance, State.setReg_pc,
      State.setReg_pc]
    rfl
  · rw [pop_of_readable hr hread, if_pos hfits, writeReg_eq, hrangeSp, if_neg Bool.false_ne_true, finish_error]

theorem popsInto_popa : PopsInto .popa (fun s v => { s with a := v }) :=
  popsInto_of_finish_pop (r := .a) (by decide) fun _ _ => rfl

/-- Settles O22: both pops have the one shape, each with its accumulator. -/
theorem popsLoadAndIncrementSP : Obligations.PopsLoadAndIncrementSP := by
  unfold Obligations.PopsLoadAndIncrementSP
  exact ⟨fun _ => rfl, popsInto_popa,
    fun _ => rfl, popsInto_of_finish_pop (r := .b) (by decide) fun _ _ => rfl⟩

/-- Settles O53: the check of the popped value does not look at `SP + 1`. -/
theorem popChecksPoppedValueBeforeSP : Obligations.PopChecksPoppedValueBeforeSP := by
  unfold Obligations.PopChecksPoppedValueBeforeSP
  exact fun _ _ hread hrange => ⟨finish_pop_of_content_not_fits (r := .a) (by decide) hread hrange,
    finish_pop_of_content_not_fits (r := .b) (by decide) hread hrange⟩

/-! ### A push undone by a pop -/

/-- A stored value can be read back at its address (R34, R35). -/
theorem StoredAt.readable {s t : State} {a v sp' : Int} (h : StoredAt s t a v sp') (ha : inRange a = true) :
    Readable t a ∧ contentAt t a = v := by
  obtain ⟨hcell, -, -⟩ := h
  exact ⟨⟨ha, by rw [hcell]⟩, by rw [contentAt, hcell]⟩

/-- Settles O23: the pop reads the cell that the push wrote at `SP - 1`, and `SP - 1 + 1` is the old SP, which fits. -/
theorem pushThenPopRestores : Obligations.PushThenPopRestores := by
  unfold Obligations.PushThenPopRestores
  intro s h1 hmax hfits hfitsSp
  have hin : inRange (s.sp - 1) = true := (inRange_iff _).2 ⟨by omega, Int.sub_one_lt_iff.2 hmax⟩
  obtain ⟨-, hpush, -⟩ := pushesValue_psha s
  obtain ⟨t, hpsha, hstored⟩ := hpush hin hfits
  obtain ⟨hread, hcontent⟩ := hstored.readable hin
  obtain ⟨-, hframe, ht⟩ := hstored
  have hsp : t.sp = s.sp - 1 := congrArg State.sp ht
  obtain ⟨-, -, hpop, -⟩ := popsInto_popa t
  rw [hsp, hcontent, sub_add_cancel] at hpop
  refine ⟨t, _, hpsha, hpop hread hfits hfitsSp, hframe, ?_⟩
  rw [ht]

end Sys2Proof.Machine
end

section
/-! SUPPORT. The claims about control transfer (spec/45_control_transfer.md R160 to R168): a jump is a branch on a flag test, `jmp`
the one whose test never fails; a call and a return are whole-state equations. -/

namespace Sys2Proof.Machine

/-! ### Jumps -/

/-- An instruction that branches on a test of the state has the shape of the jump rules (R160 to R166). -/
theorem jumpsWhen_of_settle_branch {i : Int → Instr} {test : State → Bool} {taken : State → Prop}
    (hexec : ∀ target s, exec (i target) s = settle s (branch (test s) target s)) (htest : ∀ s, test s = true ↔ taken s) :
    JumpsWhen i taken := by
  intro target s
  rw [hexec, ← htest]
  refine ⟨fun ht hin => ?_, fun ht hout => ?_, fun hnot => ?_⟩
  · rw [ht, branch_true, jumpTo_eq, if_pos hin, settle_ok]
  · rw [ht, branch_true, jumpTo_eq, hout, if_neg Bool.false_ne_true, settle_error]
  · rw [Bool.eq_false_iff.2 hnot, branch_false, settle_ok]
    rfl

theorem condNe_iff (s : State) : condNe s = true ↔ s.z = false := by rw [condNe, Bool.not_eq_true']

theorem condGe_iff (s : State) : condGe s = true ↔ s.z = true ∨ s.g = true := by rw [condGe, Bool.or_eq_true]

theorem condLe_iff (s : State) : condLe s = true ↔ s.z = true ∨ s.l = true := by rw [condLe, Bool.or_eq_true]

/-- Settles O26: six branches, each on its own test. -/
theorem conditionalJumpsTestStickyFlags : Obligations.ConditionalJumpsTestStickyFlags := by
  unfold Obligations.ConditionalJumpsTestStickyFlags
  exact ⟨fun _ => rfl, jumpsWhen_of_settle_branch (fun _ _ => rfl) condNe_iff,
    fun _ => rfl, jumpsWhen_of_settle_branch (test := condEq) (fun _ _ => rfl) fun _ => Iff.rfl,
    fun _ => rfl, jumpsWhen_of_settle_branch (test := condGt) (fun _ _ => rfl) fun _ => Iff.rfl,
    fun _ => rfl, jumpsWhen_of_settle_branch (test := condLt) (fun _ _ => rfl) fun _ => Iff.rfl,
    fun _ => rfl, jumpsWhen_of_settle_branch (fun _ _ => rfl) condGe_iff,
    fun _ => rfl, jumpsWhen_of_settle_branch (fun _ _ => rfl) condLe_iff⟩

/-! ### Call and return -/

/-- `jsr` to a legal target (R167). -/
theorem exec_jsr_of_inRange {target : Int} (h : inRange target = true) (s : State) :
    exec (.jsr target) s = .next { s with rs := s.pc + 1, pc := target.toNat } := by
  rw [exec, execJsr, call_eq, if_pos h, settle_ok]

/-- `jsr` to an illegal target records the fault and leaves RS alone (R75, R167). -/
theorem exec_jsr_of_not_inRange {target : Int} (h : inRange target = false) (s : State) :
    exec (.jsr target) s = .next (s.raise (.addressOutOfRange target)) := by
  rw [exec, execJsr, call_eq, h, if_neg Bool.false_ne_true, settle_error]

/-- `rfs` (R168). -/
theorem exec_rfs (s : State) : exec .rfs s = .next { s with pc := s.rs } := by rw [exec, execRfs, settle_ok]

/-- Settles O25: `jmp` is the branch that is always taken. -/
theorem jumpCallAndReturn : Obligations.JumpCallAndReturn := by
  unfold Obligations.JumpCallAndReturn
  exact ⟨fun _ => rfl, jumpsWhen_of_settle_branch (test := fun _ => true) (fun _ _ => rfl) fun _ => iff_of_true rfl trivial,
    fun _ => rfl, fun _ s => ⟨fun hin => exec_jsr_of_inRange hin s, fun hout => exec_jsr_of_not_inRange hout s⟩,
    fun _ => rfl, exec_rfs⟩

/-- Settles O27: the inner call leaves its own return address `t₁ + 1` in RS, and no return changes RS. -/
theorem nestedCallLosesOuterReturn : Obligations.NestedCallLosesOuterReturn := by
  unfold Obligations.NestedCallLosesOuterReturn
  intro t₁ t₂ s h₁ h₂
  have outer := exec_jsr_of_inRange h₁ s
  have inner := exec_jsr_of_inRange h₂ { s with rs := s.pc + 1, pc := t₁.toNat }
  exact ⟨_, _, _, _, outer, inner, exec_rfs _, rfl, exec_rfs _, rfl⟩

end Sys2Proof.Machine
end

section
/-! SUPPORT. The claims about faults and the host (spec/60_exceptions.md): under every `VW` a step keeps every value
representable (R183), fault entry records its numbered code (R180, R186), and the host's moves keep their phases (R192). -/

namespace Sys2Proof.Machine

/-! ### Representable values -/

namespace State.Representable

variable {cfg : Config} {s : State} {v : Int}

/-- A register takes a value that fits. -/
theorem setReg (hs : s.Representable cfg) (r : Reg) (hv : cfg.fits v = true) : (s.setReg r v).Representable cfg := by
  obtain ⟨ha, hb, hx, hsp, hmem⟩ := hs
  cases r with
  | a => exact ⟨hv, hb, hx, hsp, hmem⟩
  | b => exact ⟨ha, hv, hx, hsp, hmem⟩
  | x => exact ⟨ha, hb, hv, hsp, hmem⟩
  | sp => exact ⟨ha, hb, hx, hv, hmem⟩

/-- A cell takes a value that fits (R35). -/
theorem writeCell (hs : s.Representable cfg) (a : Nat) (hv : cfg.fits v = true) :
    ({ s with mem := Memory.write s.mem a (Cell.ofValue v) } : State).Representable cfg := by
  refine { hs with mem_fits := fun b => ?_ }
  rw [Memory.read_write]
  split
  · exact hv
  · exact hs.mem_fits b

/-- Whether a state is representable depends on its value registers and its memory only. -/
theorem advance (hs : s.Representable cfg) : s.advance.Representable cfg := { hs with }

end State.Representable

/-- Every effect writes checked values only, but for the `SP - 1` of a push, a legal address that every `VW` holds (R183). -/
theorem Effect.representable {cfg : Config} {i : Instr} {s t : State} (h : Effect cfg i s t) (hs : s.Representable cfg) :
    t.Representable cfg := by
  cases h with
  | written r _ _ _ fits => exact (hs.setReg r fits).advance
  | stored a _ _ _ _ fits => exact (hs.writeCell a.toNat fits).advance
  | pushed _ _ _ _ legal fits =>
    obtain ⟨hlow, hhigh⟩ := (inRange_iff _).1 legal
    have hsp : cfg.fits (s.sp - 1) = true := fits_of_17 cfg (by omega) (by omega)
    exact ((hs.setReg .sp hsp).writeCell (s.sp - 1).toNat fits).advance
  | popped r _ _ _ _ fits fitsSp => exact ((hs.setReg r fits).setReg .sp fitsSp).advance
  | fault | compared | halted | untaken | jumped | called | returned => exact { hs with }

/-- Settles O35: a no-op changes PC alone, and every effect of an instruction keeps values representable. -/
theorem stepKeepsValuesRepresentable : Obligations.StepKeepsValuesRepresentable := by
  unfold Obligations.StepKeepsValuesRepresentable
  intro cfg s t hs hstep
  obtain ⟨-, ⟨-, -, rfl⟩ | ⟨i, -, heffect⟩⟩ := stepIn_cases hstep
  · exact hs.advance
  · exact heffect.representable hs

/-! ### Fault entry -/

/-- A recorded fault decides the run state, whatever H and PC are (R19). -/
theorem runState_of_fc_ne_none {s : State} (h : s.fc ≠ .none) : s.runState = .faulted := if_pos h

/-- Settles O41: no fault has the code 0, so the state after fault entry is Faulted. -/
theorem faultCodesAreNumbered : Obligations.FaultCodesAreNumbered := by
  unfold Obligations.FaultCodesAreNumbered
  exact fun s n => ⟨⟨rfl, rfl⟩, ⟨rfl, rfl⟩, ⟨rfl, rfl⟩, fun r => runState_of_fc_ne_none r.code_ne_none⟩

/-! ### The host's moves -/

section HostMoves

variable {h : Session}

theorem hostStart_of_started (hp : h.phase = .started) : hostStart h = none := by rw [hostStart, hp]

theorem hostStart_of_loading (hp : h.phase = .loading) : hostStart h = some ⟨.started, h.engine⟩ := by rw [hostStart, hp]

theorem hostLoad_of_started (hp : h.phase = .started) (a : Int) (c : Cell) : hostLoad a c h = none := by rw [hostLoad, hp]

theorem hostLoad_of_loading (hp : h.phase = .loading) {a : Int} {c : Cell} (ha : inRange a = true) (hc : Fits c.val) :
    hostLoad a c h = some ⟨.loading, loadCell h.engine a.toNat c⟩ := by
  simp [hostLoad, hp, ha, hc]

theorem engineMove_of_loading (hp : h.phase = .loading) : engineMove h = none := by rw [engineMove, hp]

theorem hostReadBack_of_running (hrun : h.engine.runState = .running) : hostReadBack h = none := by rw [hostReadBack, hrun]

theorem hostReadBack_of_stopped (hstop : h.engine.runState ≠ .running) : hostReadBack h = some h.engine := by
  unfold hostReadBack
  split
  · contradiction
  · rfl
  · rfl

end HostMoves

/-- Settles O50: one move at a time; the loaded engine is `loadCell`'s, which changes the one cell. -/
theorem hostMovesKeepTheirPhases : Obligations.HostMovesKeepTheirPhases := by
  unfold Obligations.HostMovesKeepTheirPhases
  intro h
  refine ⟨fun hp => ⟨hostStart_of_started hp, hostLoad_of_started hp⟩,
    fun hp => ⟨engineMove_of_loading hp, hostStart_of_loading hp, fun a c ha hc => ?_⟩,
    hostReadBack_of_running, hostReadBack_of_stopped, rfl⟩
  exact ⟨_, hostLoad_of_loading hp ha hc, read_loadCell_same c (toNat_lt_of_inRange ha),
    fun _ => read_loadCell_other _ c, loadCell_eq _ _ _⟩

end Sys2Proof.Machine
end
